-- ==== Sys2Proof/Word.lean ====
section
/-! DEFINITION. The word types of the Vlix/Base32 codec block (00_scope.md section 4). -/

namespace Sys2Proof

/-- An 8-bit byte or character code (R31, R46). -/
abbrev Byte := BitVec 8

/-- A 5-bit symbol value, the index of a data symbol in the alphabet (R48). -/
abbrev Sym := BitVec 5

/-- The 40-bit accumulator of one group (R21). -/
abbrev Acc := BitVec 40

/-- The command word `CMD[2:0]`, all of which is the opcode (R56). -/
abbrev Opcode := BitVec 3

end Sys2Proof
end

