-- ==== Sys2Proof/Syntax.lean ====
section
/-! DEFINITION. The seven commands of the block, one constructor per row of the opcode table (R56). -/

namespace Sys2Proof

/-- A command. No command carries an operand in its word (R62): the argument of every command is
`IN[0..IN_LEN)`. -/
inductive Instr where
  /-- `ENC`: padded encode (R79). -/
  | enc
  /-- `ENCU`: unpadded encode (R80). -/
  | encu
  /-- `DEC`: tolerant decode (R95). -/
  | dec
  /-- `DECU`: unpadded-only decode (R97). -/
  | decu
  /-- `DECP`: padded-only decode (R98). -/
  | decp
  /-- `VALID`: shape check (R108). -/
  | valid
  /-- `ISB32`: shape check and successful tolerant decode (R109). -/
  | isb32
deriving DecidableEq, Repr

end Sys2Proof
end

