-- ==== Sys2Proof/WellFormed.lean ====
section
/-! DEFINITION. Which command words and which commands are well formed. -/

namespace Sys2Proof

/-- The legal command words are 0 to 6; 7 is reserved (R17, R57). -/
def Opcode.wellFormed (w : Opcode) : Bool := decide (w.toNat ≤ 6)

/-- Every command is well formed: no command has an operand field that could be out of range (R62). -/
def Instr.wellFormed : Instr → Bool
  | .enc => true
  | .encu => true
  | .dec => true
  | .decu => true
  | .decp => true
  | .valid => true
  | .isb32 => true

end Sys2Proof
end

