-- ==== Sys2Proof/Decode.lean ====
section
/-! DEFINITION. Decoding a command word, and the encoder (R56, R57). -/

namespace Sys2Proof

/-- Why a word is no command. -/
inductive Reject where
  /-- The word is the reserved opcode 7 (R57). -/
  | reservedOpcode
  /-- The value does not fit in the three bits of `CMD` (R57: a command is always exactly 3 bits). -/
  | wordTooWide
deriving DecidableEq, Repr

/-- The command that a 3-bit word stands for, by the table of R56. -/
def decode (w : Opcode) : Except Reject Instr :=
  match w.toNat with
  | 0 => .ok .enc
  | 1 => .ok .encu
  | 2 => .ok .dec
  | 3 => .ok .decu
  | 4 => .ok .decp
  | 5 => .ok .valid
  | 6 => .ok .isb32
  | _ => .error .reservedOpcode

/-- Decoding a word given as a number of any width: only a word of three bits is a command. -/
def decodeNat (w : Nat) : Except Reject Instr :=
  if w < 8 then decode (BitVec.ofNat 3 w) else .error .wordTooWide

/-- The command read from a row of the opcode table, whose bits are numbered as the table numbers
them. A row has one word of three bits, so whatever width the table's bits are counted in, the bits
above the third must be zero. -/
def decodeTableWord (_nbits w : Nat) : Option Instr :=
  match decodeNat w with
  | .ok i => some i
  | .error _ => none

/-- The command word of a command (R56). -/
def encode : Instr → Opcode
  | .enc => 0b000#3
  | .encu => 0b001#3
  | .dec => 0b010#3
  | .decu => 0b011#3
  | .decp => 0b100#3
  | .valid => 0b101#3
  | .isb32 => 0b110#3

end Sys2Proof
end

