-- ==== Sys2Proof/Config.lean ====
section
/-! DEFINITION. What an implementation fixes and the spec leaves open. -/

namespace Sys2Proof

/-- `CAP_IN`, the number of bytes the input buffer of the block holds (R3, D2: `OPEN`, an argument of
the model). It has no body, so nothing can be proved that depends on its value. It is used in
`Machine.State.reset` only; every other definition reads the capacity from the state, so that a
statement about all states holds for every capacity. DESIGN CHOICE, safe, log entry 1. -/
opaque Config.capIn : Nat

end Sys2Proof
end

