-- ==== Sys2Proof/Machine/State.lean ====
section
/-! DEFINITION. The state of the block, the events that change it, and the reasons a step stops. -/

namespace Sys2Proof.Machine

/-- Cells of the input buffer that hold a byte, by index. A cell that is not listed is `unwritten`
(R13). The canonical form is `Memory.wf`. -/
abbrev Memory := List Host.Cell

/-- The three values of `STATUS` (R18). The fourth bit pattern never occurs (93 B8). -/
inductive Status where
  | idle
  | busy
  | done
deriving DecidableEq, Repr

/-- The four error kinds of the decoder commands (R130). -/
inductive ErrorKind where
  | invalidSize
  | invalidPadding
  | requiresPadding
  | invalidCharacter
deriving DecidableEq, Repr

/-- An entry of `DEC_ROM` (R12). -/
inductive DecEntry where
  | value (v : Sym)
  | padding
  | invalid
deriving DecidableEq, Repr

/-- What `COMPLETE` writes back: the result sequence, the error kind (`none` is the spec's `None`)
and the boolean (the triple `(out, err, res)` of R119). -/
structure Result where
  out : List Byte
  err : Option ErrorKind
  res : Bool
deriving DecidableEq, Repr

/-- A host step (R112, R63). -/
inductive HostStep where
  /-- `WIN i, b`: write byte `b` to `IN[i]` (R113). -/
  | win (i : Nat) (b : Byte)
  /-- `WLEN n`: write `n` to `IN_LEN` (R114). -/
  | wlen (n : Nat)
  /-- `START op`: write the opcode to `CMD` (R115). -/
  | start (op : Opcode)
  /-- `RSTAT`: read `STATUS` (R117). -/
  | rstat
  /-- `RLEN`: read `IN_LEN` (R118). -/
  | rlen
  /-- `RERR`: read `ERR` (R118). -/
  | rerr
  /-- `RRES`: read `RES` (R118). -/
  | rres
  /-- `ROLEN`: read `OUT_LEN` (R118). -/
  | rolen
  /-- `ROUT i`: read `OUT` at index `i` (R118, R36). -/
  | rout (i : Nat)
deriving DecidableEq, Repr

/-- A host access given by its register index (R35). The argument `arg` is the buffer index of the
two windows; the other registers have no argument and ignore it. -/
inductive Access where
  | read (index arg : Nat)
  | write (index arg value : Nat)
deriving DecidableEq, Repr

/-- An event of a run (R112): a host step, a host step given by its register index, the engine's
step, or reset. -/
inductive Event where
  | host (h : HostStep)
  | bus (a : Access)
  | complete
  | reset
deriving DecidableEq, Repr

/-- Why the block stops with a fault. Neither occurs in a state that meets `State.Inv`. -/
inductive Fault where
  /-- The engine reads input cell `i`, which holds no byte. Raised by `COMPLETE`; R116 (d) keeps it from
  happening. Safe: the model stops and picks no value (93 B4). -/
  | unwrittenCell (i : Nat)
  /-- The engine reads input cell `i`, which does not exist. Raised by `COMPLETE`; R116 (c) keeps it from
  happening. Safe: the model stops. -/
  | noSuchCell (i : Nat)
deriving DecidableEq, Repr

/-- Why a step is `refused`: the spec gives the action no meaning (R146). All are safe: the model
stops where a block would do something the spec does not say. -/
inductive Refusal where
  /-- Raised by `exec` for a command that has no meaning yet; no command of this model is. Safe. -/
  | notModelled (mnemonic : String)
  /-- Raised by `START`, and by the engine, for opcode 7 (R57, R126). Safe. -/
  | reservedOpcode
  /-- Raised by every host step but `RSTAT` while `STATUS = BUSY` (R120). Safe. -/
  | busy
  /-- Raised by `COMPLETE` when `STATUS` is not `BUSY`, where it is not enabled (R119). Safe. -/
  | notBusy
  /-- Raised by `WLEN n` when `n` does not fit in `LENW` bits (R114, 93 B6). Safe. -/
  | lengthTooWide (n : Nat)
  /-- Raised by `START` when `IN_LEN > CAP_IN` (R116 c). Safe. -/
  | argumentTooLong
  /-- Raised by `START` when a cell of the argument is unwritten (R116 d). Safe. -/
  | argumentUnwritten
  /-- Raised by `WIN i` when `i >= CAP_IN` (R37). Safe. -/
  | inIndexOutOfRange (i : Nat)
  /-- Raised by `ROUT i` when `i >= CAP_OUT` (R37). Safe. -/
  | outIndexOutOfRange (i : Nat)
  /-- Raised by an access to register index 8 or above (R37). Safe. -/
  | noSuchRegister (index : Nat)
  /-- Raised by a read of a write-only or a write of a read-only register index: "An access not in this
  table does not exist" (R24, R35). Safe. -/
  | noSuchAccess (index : Nat)
  /-- Raised by a write at an index whose register is narrower than the value (R34, R35). Safe. -/
  | valueTooWide (index : Nat)
deriving DecidableEq, Repr

/-- The state of the block: the tuple of R27, the capacity it is a parameter of, and two fields of
the model's own that stand for the world outside. -/
structure State where
  /-- `CAP_IN` (R3). A parameter: no step changes it. -/
  capIn : Nat
  /-- `IN` (R13): the written cells. -/
  inBuf : Memory
  /-- `IN_LEN` (R14), an unsigned number of `LENW` bits. -/
  inLen : Nat
  /-- `OUT` (R15): the sequence of `OUT_LEN` bytes, so that `OUT_LEN` is its length (R27). -/
  out : List Byte
  /-- `CMD` (R17). -/
  cmd : Opcode
  /-- `STATUS` (R18). -/
  status : Status
  /-- `ERR` (R19); `none` is the spec's `None`. -/
  err : Option ErrorKind
  /-- `RES` (R20). -/
  res : Bool
  /-- The model's own: the events still to come, next one first. It is the free choice of the host's
  accesses, of the engine's delay and of reset (R112, R159, R160). DESIGN CHOICE, log entry 2. -/
  pending : List Event
  /-- The model's own: the values the host's reads have returned, oldest first. DESIGN CHOICE, log
  entry 3. -/
  returned : List Nat
deriving DecidableEq, Repr

/-- The state right after reset of a block of capacity `cap` (R25). -/
def State.resetWith (cap : Nat) : State where
  capIn := cap
  inBuf := []
  inLen := 0
  out := []
  cmd := 0#3
  status := .idle
  err := none
  res := false
  pending := []
  returned := []

/-- The state right after reset (R25), of a block whose capacity nothing is known of (R3). -/
def State.reset : State := State.resetWith Config.capIn

end Sys2Proof.Machine
end

