-- ==== Sys2Proof/Machine/Group.lean ====
section
/-! DEFINITION. The 40-bit group and the tail arithmetic (30_encoding.md R49 to R54). The accumulator
`ACC` is a local value of the group functions (R21). -/

namespace Sys2Proof.Machine

/-- `ACC[39:0] = b0 :: b1 :: b2 :: b3 :: b4` (R49). -/
def accOfBytes (b0 b1 b2 b3 b4 : Byte) : Acc := b0 ++ b1 ++ b2 ++ b3 ++ b4

/-- `ACC[39:0] = s0 :: ... :: s7` for the symbol values of a block in text order, a missing value
counting as zero (R50, R92). -/
def accOfSyms (v : List Sym) : Acc :=
  v.getD 0 0#5 ++ v.getD 1 0#5 ++ v.getD 2 0#5 ++ v.getD 3 0#5 ++
    v.getD 4 0#5 ++ v.getD 5 0#5 ++ v.getD 6 0#5 ++ v.getD 7 0#5

/-- Symbol value `sj = ACC[39 - 5j : 35 - 5j]` (R50). -/
def symAt (acc : Acc) (j : Nat) : Sym := acc.extractLsb' (35 - 5 * j) 5

/-- Byte `bk = ACC[39 - 8k : 32 - 8k]` (R49). -/
def byteAt (acc : Acc) (k : Nat) : Byte := acc.extractLsb' (32 - 8 * k) 8

/-- `q(r)`: the data symbols of a tail of `r` bytes (R52). -/
def dataSymbols : Nat → Nat
  | 1 => 2
  | 2 => 4
  | 3 => 5
  | 4 => 7
  | _ => 0

/-- `p(r)`: the pad characters of a tail of `r` bytes (R52; `p(0) = 0`, C10). -/
def padSymbols : Nat → Nat
  | 1 => 6
  | 2 => 4
  | 3 => 3
  | 4 => 1
  | _ => 0

/-- `rq(d) = floor(5d / 8)`: the bytes a block with `d` data symbols holds (R53, C3). -/
def blockByteCount (d : Nat) : Nat := 5 * d / 8

/-- `A(rmod)`: the pad characters appended to reach whole blocks (R54, R88). -/
def appendCount : Nat → Nat
  | 2 => 6
  | 4 => 4
  | 5 => 3
  | 7 => 1
  | _ => 0

/-- `K(rmod)`: the trailing tail characters that may be pads (R54, R89). -/
def padWindow : Nat → Nat
  | 4 => 2
  | 5 => 3
  | 7 => 1
  | _ => 0

end Sys2Proof.Machine
end

