-- ==== Sys2Proof/Machine/Flags.lean ====
section
/-! DEFINITION. The result indications `ERR` and `RES`, which are all the flags the block has (R23),
and the numbers the host reads for a register (R58 to R60). -/

namespace Sys2Proof.Machine

/-- The code of `STATUS` (R58). -/
def Status.code : Status → Nat
  | .idle => 0
  | .busy => 1
  | .done => 2

/-- The code of an error kind (R59, R130). -/
def ErrorKind.code : ErrorKind → Nat
  | .invalidSize => 1
  | .invalidPadding => 2
  | .requiresPadding => 3
  | .invalidCharacter => 4

/-- The code of `ERR`: 0 is `None` (R59). -/
def errCode : Option ErrorKind → Nat
  | none => 0
  | some k => k.code

/-- The code of `RES` (R60). -/
def resCode : Bool → Nat
  | false => 0
  | true => 1

/-- The result of an encoder command: a text, no error, boolean 0 (R75). -/
def Result.ofText (t : List Byte) : Result := ⟨t, none, false⟩

/-- `RESULT` of R119: the bytes of a successful decode; on an error no byte and its kind (R85, R139). -/
def Result.ofDecode : Except ErrorKind (List Byte) → Result
  | .ok r => ⟨r, none, false⟩
  | .error k => ⟨[], some k, false⟩

/-- The result of a validator command: the boolean, no byte, no error (R105). -/
def Result.ofPredicate (v : Bool) : Result := ⟨[], none, v⟩

end Sys2Proof.Machine
end

