-- ==== Sys2Proof/Machine/Params.lean ====
section
/-! DEFINITION. The parameters derived from the capacity of the input buffer (00_scope.md section 4). -/

namespace Sys2Proof.Machine

/-- `CAP_OUT = 8 * ceil(CAP_IN / 5)` (R4). -/
def capOut (cap : Nat) : Nat := 8 * ((cap + 4) / 5)

/-- `LENW`, the least `w` with `2^w > CAP_OUT` (00_scope.md section 4, D3). -/
def lenW (cap : Nat) : Nat :=
  if capOut cap = 0 then 0 else Nat.log2 (capOut cap) + 1

end Sys2Proof.Machine
end

