-- ==== Sys2Proof/Machine/Operands.lean ====
section
/-! DEFINITION. The input buffer, and the one operand every command has: the sequence
`IN[0..IN_LEN)` (R44, R62). -/

namespace Sys2Proof.Machine

/-- The byte a cell holds, or `none` for an unwritten cell (R13). -/
def Memory.read : Memory → Nat → Option Byte
  | [], _ => none
  | (a, b) :: m, i => if a = i then some b else Memory.read m i

/-- Write a byte to a cell; the last value written stays (R113). -/
def Memory.write : Memory → Nat → Byte → Memory
  | [], i, b => [(i, b)]
  | (a, c) :: m, i, b =>
    if i < a then (i, b) :: (a, c) :: m
    else if a = i then (i, b) :: m
    else (a, c) :: Memory.write m i b

/-- The canonical form: indices strictly rising. No entry can equal what an unlisted cell reads as,
since an unlisted cell reads as no value. -/
def Memory.wf (m : Memory) : Bool := decide ((m.map Prod.fst).Pairwise (· < ·))

/-- The engine's read of `IN[i]`: cells at `CAP_IN` and beyond do not exist, and an unwritten cell
has no value (R13, 93 B4). -/
def State.readIn (s : State) (i : Nat) : Except Fault Byte :=
  if s.capIn ≤ i then .error (.noSuchCell i)
  else
    match Memory.read s.inBuf i with
    | some b => .ok b
    | none => .error (.unwrittenCell i)

/-- The sequence of the `n` cells from index `i` on. -/
def State.readCells (s : State) : Nat → Nat → Except Fault (List Byte)
  | _, 0 => .ok []
  | i, n + 1 =>
    match s.readIn i with
    | .error f => .error f
    | .ok b =>
      match s.readCells (i + 1) n with
      | .error f => .error f
      | .ok bs => .ok (b :: bs)

/-- The argument of an operation, `IN[0..IN_LEN)` (R44). -/
def State.argument (s : State) : Except Fault (List Byte) := s.readCells 0 s.inLen

end Sys2Proof.Machine
end

