-- ==== Sys2Proof/Machine/Ops.lean ====
section
/-! DEFINITION. The named operations over the state that the commands and the host steps share. The
block has no exception entry and no return from one: an error is a result, written back like any
other (R139, R140). -/

namespace Sys2Proof.Machine

/-- `OUT_LEN` (R16): the length of the result sequence (R27). -/
def State.outLen (s : State) : Nat := s.out.length

/-- The host's view of `OUT` at index `i`: `0x00` at and beyond `OUT_LEN` (R36). -/
def State.readOut (s : State) (i : Nat) : Byte := s.out.getD i 0#8

/-- The write-back of an operation: all result registers at once, and `STATUS <- DONE` (R119). -/
def State.writeBack (s : State) (r : Result) : State :=
  { s with out := r.out, err := r.err, res := r.res, status := .done }

/-- `COMPLETE` for the operation `f` on the argument sequence (R119): enabled exactly when `STATUS` is
`BUSY`; reads the argument, writes the result back. -/
def complete (f : List Byte → Result) (s : State) : Host.Outcome State Fault Refusal :=
  match s.status with
  | .busy =>
    match s.argument with
    | .ok x => .next (s.writeBack (f x))
    | .error e => .fault e
  | .idle => .refused .notBusy
  | .done => .refused .notBusy

/-- The gate on the host's steps while `STATUS = BUSY` (R120). -/
def whenNotBusy (s : State) (k : Host.Outcome State Fault Refusal) :
    Host.Outcome State Fault Refusal :=
  match s.status with
  | .busy => .refused .busy
  | .idle => k
  | .done => k

/-- A read returns a value to the host and changes nothing else (R34). -/
def State.give (s : State) (v : Nat) : State := { s with returned := s.returned ++ [v] }

/-- The reset event (R150): every piece of the block's state at its reset value, in one step. The
capacity, the events still to come and the host's record are not the block's state. -/
def State.resetEvent (s : State) : State :=
  { State.resetWith s.capIn with pending := s.pending, returned := s.returned }

end Sys2Proof.Machine
end

