-- ==== Sys2Proof/Machine/Tables.lean ====
section
/-! DEFINITION. The two lookup ROMs (40_tables.md). The numeric character codes but `0x3D` are the
ASCII codes, which the spec marks as general knowledge (R46, G1): PRESUMED, log entry 10. -/

namespace Sys2Proof.Machine

/-- The pad character `=` (R47). -/
def pad : Byte := 0x3D#8

/-- The contents of `ENC_ROM` (R65): the codes of `ABCDEFGHIJKLMNOPQRSTUVWXYZ234567` in order. -/
def encTable : List Byte :=
  [0x41#8, 0x42#8, 0x43#8, 0x44#8, 0x45#8, 0x46#8, 0x47#8, 0x48#8,
   0x49#8, 0x4A#8, 0x4B#8, 0x4C#8, 0x4D#8, 0x4E#8, 0x4F#8, 0x50#8,
   0x51#8, 0x52#8, 0x53#8, 0x54#8, 0x55#8, 0x56#8, 0x57#8, 0x58#8,
   0x59#8, 0x5A#8, 0x32#8, 0x33#8, 0x34#8, 0x35#8, 0x36#8, 0x37#8]

/-- `ENC_ROM[v]` (R65). -/
def encRom (v : Sym) : Byte := encTable.getD v.toNat 0#8

/-- `DEC_ROM[b]` (R67), by the closed form of the rule. -/
def decRom (b : Byte) : DecEntry :=
  if 0x41 ≤ b.toNat ∧ b.toNat ≤ 0x5A then .value (BitVec.ofNat 5 (b.toNat - 0x41))
  else if 0x32 ≤ b.toNat ∧ b.toNat ≤ 0x37 then .value (BitVec.ofNat 5 (b.toNat - 0x32 + 26))
  else if b = pad then .padding
  else .invalid

/-- The bit pattern the spec offers for a `DEC_ROM` entry (R61); nothing observes it. -/
def DecEntry.pattern : DecEntry → BitVec 7
  | .value v => v.setWidth 7
  | .padding => 0b0100000#7
  | .invalid => 0b1000000#7

end Sys2Proof.Machine
end

