-- ==== Sys2Proof/Machine/Decoder.lean ====
section
/-! DEFINITION. The decoder: the size check, the pre-checks, `UNPACK` and the commands `DEC`, `DECU`
and `DECP` (42_decoder.md). -/

namespace Sys2Proof.Machine

/-- The lengths modulo 8 that are no size of a text: 1, 3 and 6 (R87). -/
def illegalSize (rmod : Nat) : Bool := rmod == 1 || rmod == 3 || rmod == 6

/-- The tail of a text: its last `L mod 8` characters (R88). -/
def tailOf (t : List Byte) : List Byte := t.drop (t.length - t.length % 8)

/-- `PRECHECK_TOLERANT` (R89); `none` is `pass`. -/
def precheckTolerant (t : List Byte) : Option ErrorKind :=
  let rmod := t.length % 8
  if rmod = 0 ∨ rmod = 2 then none
  else
    let k := padWindow rmod
    let tail := tailOf t
    let c := (tail.drop (rmod - k)).count pad
    if pad ∈ tail.take (rmod - k) then some .invalidPadding
    else if c ≠ 0 ∧ c ≠ k then some .invalidPadding
    else none

/-- `PRECHECK_UNPADDED` (R96); `none` is `pass`. -/
def precheckUnpadded (t : List Byte) : Option ErrorKind :=
  let rmod := t.length % 8
  if rmod = 0 then
    if t.getLast? = some pad then some .invalidPadding else none
  else if rmod = 2 then none
  else if pad ∈ tailOf t then some .invalidPadding
  else none

/-- `NORMALISE` (R90). -/
def normalise (t : List Byte) : List Byte :=
  t ++ List.replicate (appendCount (t.length % 8)) pad

/-- `UNPACK`'s walk over the characters of one block (R91, R94). `vals` holds the values accepted so
far in text order and `seen` says whether a pad character has been met; until then the position in
the block is the number of values. The four cases of R91 end the walk. The result is the list of
the block's data symbols. -/
def walkBlock (final : Bool) (vals : List Sym) (seen : Bool) :
    List Byte → Except ErrorKind (List Sym)
  | [] => .ok vals
  | c :: cs =>
    match decRom c with
    | .invalid => .error .invalidCharacter
    | .padding =>
      if final = false then .error .invalidPadding
      else if seen then walkBlock final vals true cs
      else if vals.length ∈ [2, 4, 5, 7] then walkBlock final vals true cs
      else .error .invalidPadding
    | .value v =>
      if seen then .error .invalidPadding
      else walkBlock final (vals ++ [v]) false cs

/-- The bytes a block with these data symbols emits: the first `rq(d)` of the five bytes of its
accumulator (R92). -/
def blockBytes (vals : List Sym) : List Byte :=
  ([0, 1, 2, 3, 4].map (byteAt (accOfSyms vals))).take (blockByteCount vals.length)

/-- `UNPACK`'s loop over the `nb` blocks of a text (R94): the last of them is the final block. -/
def unpackBlocks : Nat → List Byte → Except ErrorKind (List Byte)
  | 0, _ => .ok []
  | nb + 1, t =>
    match walkBlock (nb == 0) [] false (t.take 8) with
    | .error k => .error k
    | .ok vals =>
      match unpackBlocks nb (t.drop 8) with
      | .error k => .error k
      | .ok r => .ok (blockBytes vals ++ r)

/-- `UNPACK` (R94), for a text of whole blocks. -/
def unpack (t : List Byte) : Except ErrorKind (List Byte) := unpackBlocks (t.length / 8) t

/-- `DECODE_TOLERANT` (R95). -/
def decodeTolerant (t : List Byte) : Except ErrorKind (List Byte) :=
  if t.length = 0 then .ok []
  else if illegalSize (t.length % 8) then .error .invalidSize
  else
    match precheckTolerant t with
    | some k => .error k
    | none => unpack (normalise t)

/-- `DECODE_UNPADDED` (R97). -/
def decodeUnpadded (t : List Byte) : Except ErrorKind (List Byte) :=
  if t.length = 0 then .ok []
  else if illegalSize (t.length % 8) then .error .invalidSize
  else
    match precheckUnpadded t with
    | some k => .error k
    | none => unpack (normalise t)

/-- `DECODE_PADDED` (R98). -/
def decodePadded (t : List Byte) : Except ErrorKind (List Byte) :=
  if t.length = 0 then .ok []
  else if illegalSize (t.length % 8) then .error .invalidSize
  else if t.length % 8 ≠ 0 then .error .requiresPadding
  else unpack t

/-- `DEC`, tolerant decode (R95). -/
def execDec (s : State) : Host.Outcome State Fault Refusal :=
  complete (fun x => Result.ofDecode (decodeTolerant x)) s

/-- `DECU`, unpadded-only decode (R97). -/
def execDecu (s : State) : Host.Outcome State Fault Refusal :=
  complete (fun x => Result.ofDecode (decodeUnpadded x)) s

/-- `DECP`, padded-only decode (R98). -/
def execDecp (s : State) : Host.Outcome State Fault Refusal :=
  complete (fun x => Result.ofDecode (decodePadded x)) s

end Sys2Proof.Machine
end

