-- ==== Sys2Proof/Machine/Encoder.lean ====
section
/-! DEFINITION. The encoder: `PACK5`, `TAIL`, `ENCODE` and the commands `ENC` and `ENCU`
(41_encoder.md). -/

namespace Sys2Proof.Machine

/-- `PACK5` (R76): the eight characters of one group. -/
def pack5 (b0 b1 b2 b3 b4 : Byte) : List Byte :=
  [0, 1, 2, 3, 4, 5, 6, 7].map fun j => encRom (symAt (accOfBytes b0 b1 b2 b3 b4) j)

/-- `TAIL` (R77), for a sequence of 1 to 4 bytes: zero-extended on the right to a group, its first
`q(r)` characters, and in the padded variant `p(r)` pad characters. -/
def tailText (padded : Bool) (t : List Byte) : List Byte :=
  (pack5 (t.getD 0 0#8) (t.getD 1 0#8) (t.getD 2 0#8) (t.getD 3 0#8) (t.getD 4 0#8)).take
      (dataSymbols t.length) ++
    (if padded then List.replicate (padSymbols t.length) pad else [])

/-- `ENCODE` (R78): the groups of five bytes in order, then the tail if there is one. -/
def encodeText (padded : Bool) : List Byte → List Byte
  | [] => []
  | [b0] => tailText padded [b0]
  | [b0, b1] => tailText padded [b0, b1]
  | [b0, b1, b2] => tailText padded [b0, b1, b2]
  | [b0, b1, b2, b3] => tailText padded [b0, b1, b2, b3]
  | b0 :: b1 :: b2 :: b3 :: b4 :: rest => pack5 b0 b1 b2 b3 b4 ++ encodeText padded rest

/-- `ENC`, padded encode (R79). -/
def execEnc (s : State) : Host.Outcome State Fault Refusal :=
  complete (fun x => Result.ofText (encodeText true x)) s

/-- `ENCU`, unpadded encode (R80). -/
def execEncu (s : State) : Host.Outcome State Fault Refusal :=
  complete (fun x => Result.ofText (encodeText false x)) s

end Sys2Proof.Machine
end

