-- ==== Sys2Proof/Machine/Validator.lean ====
section
/-! DEFINITION. The validator: `SHAPE_VALID`, the set `LEGAL`, and the commands `VALID` and `ISB32`
(43_validator.md). -/

namespace Sys2Proof.Machine

/-- The set `LEGAL` of pairs (length modulo 8, trailing pad characters) (R107). -/
def legalShapes : List (Nat × Nat) :=
  [(0, 0), (0, 1), (0, 3), (0, 4), (0, 6), (2, 0), (4, 0), (4, 2), (5, 0), (5, 3), (7, 0), (7, 1)]

/-- `k` of R106: the number of consecutive pad characters at the end of a text. -/
def padRun (t : List Byte) : Nat := (t.reverse.takeWhile (· == pad)).length

/-- `SHAPE_VALID` (R106): every character a symbol, the pads one trailing run, the shape legal. -/
def shapeValid (t : List Byte) : Bool :=
  t.all (fun c => decRom c != .invalid) &&
    (t.take (t.length - padRun t)).all (fun c => c != pad) &&
    legalShapes.contains (t.length % 8, padRun t)

/-- Whether a decode is `Ok`. -/
def succeeds : Except ErrorKind (List Byte) → Bool
  | .ok _ => true
  | .error _ => false

/-- The predicate of `ISB32` (R109). -/
def isBase32 (t : List Byte) : Bool := shapeValid t && succeeds (decodeTolerant t)

/-- `VALID`, shape check only (R108). -/
def execValid (s : State) : Host.Outcome State Fault Refusal :=
  complete (fun x => Result.ofPredicate (shapeValid x)) s

/-- `ISB32`, shape check and successful tolerant decode (R109). -/
def execIsb32 (s : State) : Host.Outcome State Fault Refusal :=
  complete (fun x => Result.ofPredicate (isBase32 x)) s

end Sys2Proof.Machine
end

