-- ==== Sys2Proof/Machine/Dispatch.lean ====
section
/-! DEFINITION. `exec`: the engine's `COMPLETE` step for each command (R119). -/

namespace Sys2Proof.Machine

def exec (i : Instr) (s : State) : Host.Outcome State Fault Refusal :=
  match i with
  | .enc => Sys2Proof.Machine.execEnc s
  | .encu => Sys2Proof.Machine.execEncu s
  | .dec => Sys2Proof.Machine.execDec s
  | .decu => Sys2Proof.Machine.execDecu s
  | .decp => Sys2Proof.Machine.execDecp s
  | .valid => Sys2Proof.Machine.execValid s
  | .isb32 => Sys2Proof.Machine.execIsb32 s

end Sys2Proof.Machine
end

