-- ==== Sys2Proof/Machine/HostAccess.lean ====
section
/-! DEFINITION. The host steps (44_host_access.md) and the register index map (R35). Where several
grounds for a refusal hold at once the spec gives no order; the order here is a DESIGN CHOICE, safe,
log entry 8. -/

namespace Sys2Proof.Machine

/-- `WIN i, b` (R113). -/
def hostWin (i : Nat) (b : Byte) (s : State) : Host.Outcome State Fault Refusal :=
  whenNotBusy s <|
    if s.capIn ≤ i then .refused (.inIndexOutOfRange i)
    else .next { s with inBuf := Memory.write s.inBuf i b }

/-- `WLEN n` (R114). A value above `CAP_IN` may be stored. -/
def hostWlen (n : Nat) (s : State) : Host.Outcome State Fault Refusal :=
  whenNotBusy s <|
    if 2 ^ lenW s.capIn ≤ n then .refused (.lengthTooWide n)
    else .next { s with inLen := n }

/-- `START op` (R115), enabled by R116. -/
def hostStart (op : Opcode) (s : State) : Host.Outcome State Fault Refusal :=
  whenNotBusy s <|
    if op.wellFormed = false then .refused .reservedOpcode
    else if s.capIn < s.inLen then .refused .argumentTooLong
    else
      match s.argument with
      | .ok _ => .next { s with cmd := op, status := .busy }
      | .error _ => .refused .argumentUnwritten

/-- `RSTAT` (R117): always enabled. -/
def hostRstat (s : State) : Host.Outcome State Fault Refusal := .next (s.give s.status.code)

/-- `RLEN` (R118). -/
def hostRlen (s : State) : Host.Outcome State Fault Refusal :=
  whenNotBusy s (.next (s.give s.inLen))

/-- `RERR` (R118). -/
def hostRerr (s : State) : Host.Outcome State Fault Refusal :=
  whenNotBusy s (.next (s.give (errCode s.err)))

/-- `RRES` (R118). -/
def hostRres (s : State) : Host.Outcome State Fault Refusal :=
  whenNotBusy s (.next (s.give (resCode s.res)))

/-- `ROLEN` (R118). -/
def hostRolen (s : State) : Host.Outcome State Fault Refusal :=
  whenNotBusy s (.next (s.give s.outLen))

/-- `ROUT i` (R118, R36). -/
def hostRout (i : Nat) (s : State) : Host.Outcome State Fault Refusal :=
  whenNotBusy s <|
    if capOut s.capIn ≤ i then .refused (.outIndexOutOfRange i)
    else .next (s.give (s.readOut i).toNat)

/-- One host step (R112). -/
def hostStep (h : HostStep) (s : State) : Host.Outcome State Fault Refusal :=
  match h with
  | .win i b => hostWin i b s
  | .wlen n => hostWlen n s
  | .start op => hostStart op s
  | .rstat => hostRstat s
  | .rlen => hostRlen s
  | .rerr => hostRerr s
  | .rres => hostRres s
  | .rolen => hostRolen s
  | .rout i => hostRout i s

/-- The host step that an access by register index is (R35). Index 8 is reserved and no index is
higher (R37); `CMD` and the `IN` window are write only, and `STATUS`, `ERR`, `RES`, `OUT_LEN` and the
`OUT` window read only (R24). A written value must fit the register (R34); the width of `IN_LEN` is
judged by `WLEN`. -/
def Access.toHostStep : Access → Except Refusal HostStep
  | .read 0 _ => .error (.noSuchAccess 0)
  | .read 1 _ => .ok .rstat
  | .read 2 _ => .ok .rerr
  | .read 3 _ => .ok .rres
  | .read 4 _ => .ok .rlen
  | .read 5 _ => .ok .rolen
  | .read 6 _ => .error (.noSuchAccess 6)
  | .read 7 i => .ok (.rout i)
  | .read r _ => .error (.noSuchRegister r)
  | .write 0 _ v => if v < 8 then .ok (.start (BitVec.ofNat 3 v)) else .error (.valueTooWide 0)
  | .write 4 _ v => .ok (.wlen v)
  | .write 6 i v => if v < 256 then .ok (.win i (BitVec.ofNat 8 v)) else .error (.valueTooWide 6)
  | .write r _ _ => if r < 8 then .error (.noSuchAccess r) else .error (.noSuchRegister r)

/-- A host access by register index. -/
def busStep (a : Access) (s : State) : Host.Outcome State Fault Refusal :=
  match a.toHostStep with
  | .ok h => hostStep h s
  | .error r => .refused r

end Sys2Proof.Machine
end

