-- ==== Sys2Proof/Machine/Engine.lean ====
section
/-! DEFINITION. The engine's read of `CMD`, and the effect of one event. -/

namespace Sys2Proof.Machine

/-- The engine's step (R119): it reads `CMD`, the nearest thing to a fetch the block has (R41), and
performs that command. -/
def engineStep (s : State) : Host.Outcome State Fault Refusal :=
  match decode s.cmd with
  | .ok i => exec i s
  | .error _ => .refused .reservedOpcode

/-- The effect of one event (R112). -/
def eventStep (e : Event) (s : State) : Host.Outcome State Fault Refusal :=
  match e with
  | .host h => hostStep h s
  | .bus a => busStep a s
  | .complete => engineStep s
  | .reset => .next s.resetEvent

/-- What happens when no event is left to come: an operation in progress completes (R123), and
otherwise the block waits for the host and nothing changes (R25). DESIGN CHOICE, log entry 2. -/
def quietStep (s : State) : Host.Outcome State Fault Refusal :=
  match s.status with
  | .busy => engineStep s
  | .idle => .next s
  | .done => .next s

/-- `s` about to perform the command word `w`: `CMD` holds it, `STATUS` is `BUSY`, and the engine moves
next. `CMD` holds three bits; higher bits of `w` have no place in it. -/
def State.aboutToPerform (s : State) (w : Nat) : State :=
  { s with cmd := BitVec.ofNat 3 w, status := .busy, pending := .complete :: s.pending }

end Sys2Proof.Machine
end

