-- ==== Sys2Proof/Machine/Step.lean ====
section
/-! DEFINITION. One step of the block: the next event of the schedule takes effect. -/

namespace Sys2Proof.Machine

/-- One step: the first event still to come is taken and has its effect (R112). -/
def step (s : State) : Host.Outcome State Fault Refusal :=
  match s.pending with
  | [] => quietStep s
  | e :: rest => eventStep e { s with pending := rest }

/-- `s` with the command word `w` where the engine reads its next command: in `CMD`, with `STATUS` at
`BUSY` and the engine moving next (R41, R119). Log entry 11. -/
def State.withFetchWord (s : State) (_nbits w : Nat) : State := s.aboutToPerform w

end Sys2Proof.Machine
end

