-- ==== Sys2Proof/Safety.lean ====
section
/-! DEFINITION. What counts as a safe run: the invariant of R26, the states a run reaches, and when
an operation has its argument. -/

namespace Sys2Proof.Machine

/-- Every cell `IN[0]` to `IN[IN_LEN - 1]` exists and holds a byte (R116 c, d). -/
def State.ArgumentWritten (s : State) : Prop :=
  s.inLen ≤ s.capIn ∧ ∀ i, i < s.inLen → ∃ b, Memory.read s.inBuf i = some b

/-- `IN[0..IN_LEN)` is the sequence `x` (R44). -/
def State.Holds (s : State) (x : List Byte) : Prop :=
  s.inLen ≤ s.capIn ∧ x.length = s.inLen ∧
    ∀ i (h : i < x.length), Memory.read s.inBuf i = some x[i]

/-- The triple `(out, err, res)` that `COMPLETE` writes for each command on the argument `x`: the case
table of R119. -/
def commandResult (i : Instr) (x : List Byte) : Result :=
  match i with
  | .enc => ⟨encodeText true x, none, false⟩
  | .encu => ⟨encodeText false x, none, false⟩
  | .dec => Result.ofDecode (decodeTolerant x)
  | .decu => Result.ofDecode (decodeUnpadded x)
  | .decp => Result.ofDecode (decodePadded x)
  | .valid => ⟨[], none, shapeValid x⟩
  | .isb32 => ⟨[], none, shapeValid x && succeeds (decodeTolerant x)⟩

/-- An operation is in progress and its argument is `x`: when the engine may perform `COMPLETE`
(R119). -/
def State.Ready (s : State) (x : List Byte) : Prop := s.status = .busy ∧ s.Holds x

/-- What R26 says of every reachable state, in the rule's order. That `STATUS` and `ERR` hold legal
values is in their types. -/
structure State.R26 (s : State) : Prop where
  outFits : s.outLen ≤ capOut s.capIn
  idleClean : s.status = .idle → s.outLen = 0 ∧ s.err = none ∧ s.res = false
  doneError : s.status = .done → s.err ≠ none →
    s.outLen = 0 ∧ s.res = false ∧ (s.cmd = 2#3 ∨ s.cmd = 3#3 ∨ s.cmd = 4#3)
  doneTrue : s.status = .done → s.res = true →
    (s.cmd = 5#3 ∨ s.cmd = 6#3) ∧ s.err = none ∧ s.outLen = 0
  busyReady : s.status = .busy → s.cmd.toNat ≤ 6 ∧ s.ArgumentWritten

/-- The invariant of the model: R26; the input buffer in canonical form with no cell beyond `CAP_IN`
(R13); `IN_LEN` within its `LENW` bits (R14). -/
structure State.Inv (s : State) : Prop where
  r26 : s.R26
  canonical : Memory.wf s.inBuf = true
  cellsExist : ∀ c ∈ s.inBuf, c.1 < s.capIn
  lengthFits : s.inLen < 2 ^ lenW s.capIn

/-- The states that some run of a block of capacity `cap` reaches from reset, whatever the schedule of
host steps, engine steps and resets (R112, R160). -/
inductive Reachable (cap : Nat) : State → Prop where
  | reset (events : List Event) : Reachable cap { State.resetWith cap with pending := events }
  | step {s t : State} : Reachable cap s → step s = .next t → Reachable cap t

end Sys2Proof.Machine
end

