-- ==== Sys2Proof/Certificates/Slice0/Obligations.lean ====
section
/-! DEFINITION. The statements about the model. Each docstring names the rule of spec/ it formalises. -/

open Sys2Proof Sys2Proof.Machine

/-! ### Reference forms used by the statements -/

namespace Sys2Proof.Reference

/-- The bits of a byte sequence, the most significant bit of each byte first (R32). -/
def bitsOfBytes (x : List Byte) : List Bool :=
  x.flatMap fun b => (List.range 8).map fun i => b.getMsbD i

/-- The bits of a sequence of symbol values, the most significant bit of each value first (R32). -/
def bitsOfSyms (v : List Sym) : List Bool :=
  v.flatMap fun w => (List.range 5).map fun i => w.getMsbD i

/-- `ACC[39 - 5i : 35 - 5i] = v`, the other bits kept (R94). -/
def setSym (acc : Acc) (i : Nat) (v : Sym) : Acc :=
  (acc &&& ~~~(31#40 <<< (35 - 5 * i))) ||| (v.setWidth 40 <<< (35 - 5 * i))

/-- The variables `ACC`, `d`, `seen` of the loop of R94. -/
structure Loop where
  acc : Acc
  d : Nat
  seen : Bool
deriving DecidableEq, Repr

/-- The body of the inner loop of R94, for the character `c` at position `i`. -/
def loopBody (final : Bool) (i : Nat) (c : Byte) (l : Loop) : Except ErrorKind Loop :=
  match decRom c with
  | .invalid => .error .invalidCharacter
  | .padding =>
    if final = false then .error .invalidPadding
    else if l.seen then .ok l
    else if i = 2 ∨ i = 4 ∨ i = 5 ∨ i = 7 then .ok { l with seen := true, d := i }
    else .error .invalidPadding
  | .value v => if l.seen then .error .invalidPadding else .ok { l with acc := setSym l.acc i v }

/-- The inner loop of R94 over positions `0` to `7` of block `b`. -/
def loopBlock (n : List Byte) (b : Nat) : Except ErrorKind Loop :=
  (List.range 8).foldlM
    (fun l i => loopBody (b == n.length / 8 - 1) i (n.getD (8 * b + i) 0#8) l) ⟨0#40, 8, false⟩

/-- `UNPACK` written as the two loops of R94. -/
def loopUnpack (n : List Byte) : Except ErrorKind (List Byte) :=
  (List.range (n.length / 8)).foldlM
    (fun r b => (loopBlock n b).map fun l =>
      r ++ [byteAt l.acc 0, byteAt l.acc 1, byteAt l.acc 2, byteAt l.acc 3, byteAt l.acc 4].take
        (blockByteCount l.d)) []

/-- Which of the four cases of R91 the character at index `i` of a text of whole blocks meets, if it
meets one: an invalid character; a pad before the final block; the first pad of the final block at a
position other than 2, 4, 5, 7; a data symbol after a pad of the final block. The final block begins at
`n.length - 8`, so `(n.take i).drop (n.length - 8)` is what stands before index `i` in it. -/
def faultAt (n : List Byte) (i : Nat) : Option ErrorKind :=
  match decRom (n.getD i 0#8) with
  | .invalid => some .invalidCharacter
  | .padding =>
    if i < n.length - 8 then some .invalidPadding
    else if 0x3D#8 ∉ (n.take i).drop (n.length - 8) ∧ i % 8 ∉ [2, 4, 5, 7] then
      some .invalidPadding
    else none
  | .value _ => if 0x3D#8 ∈ (n.take i).drop (n.length - 8) then some .invalidPadding else none

/-- The events of one call of a source operation (R124): load the argument, start, poll `polls` times
while the engine works, see `DONE`, read every result register and the `m` result bytes. -/
def callEvents (i : Instr) (x : List Byte) (polls m : Nat) : List Event :=
  x.zipIdx.map (fun c => .host (.win c.2 c.1)) ++ [.host (.wlen x.length), .host (.start (encode i))] ++
    List.replicate polls (.host .rstat) ++
    [.complete, .host .rstat, .host .rerr, .host .rres, .host .rolen] ++
    (List.range m).map fun j => .host (.rout j)

end Sys2Proof.Reference

open Sys2Proof.Reference

/-! ### The command word -/

/-- A step runs the decoded command. Where the engine moves next and `CMD` decodes to `i`, the step is
`exec i` on the state with that event taken off the schedule; with no event left and an operation in
progress it is `exec i` on the state itself; and `withFetchWord` puts any command's word there. R41
("the engine's read of `CMD` at `COMPLETE`") and R119; the schedule is the model's choice, log entries
2 and 11. -/
def Obligations.StepPerformsDecodedCommand : Prop :=
  ∀ (s : State) (i : Instr),
    (∀ rest, s.pending = .complete :: rest → decode s.cmd = .ok i →
      step s = exec i { s with pending := rest }) ∧
    (s.pending = [] → s.status = .busy → decode s.cmd = .ok i → step s = exec i s) ∧
    (∀ nbits, step (s.withFetchWord nbits (encode i).toNat) =
      exec i { s with cmd := encode i, status := .busy })

/-- A step takes the first event of the schedule: a host step, an access by register index, or reset
has its effect on the state with the event taken off; with no event left and no operation in progress
nothing changes. The schedule is the model's choice, log entry 2 (R112, R25 "the block waits for the
host"). -/
def Obligations.StepTakesNextEvent : Prop :=
  ∀ (s : State) (rest : List Event),
    (∀ h, s.pending = .host h :: rest → step s = hostStep h { s with pending := rest }) ∧
    (∀ a h, s.pending = .bus a :: rest → a.toHostStep = .ok h →
      step s = hostStep h { s with pending := rest }) ∧
    (s.pending = .reset :: rest → step s = .next (State.resetEvent { s with pending := rest })) ∧
    (s.pending = [] → s.status ≠ .busy → step s = .next s)

/-- The command words of the table of R56, bit by bit, as the opcode table's words give them. -/
def Obligations.CommandWordsDecode : Prop :=
  decode 0b000#3 = .ok .enc ∧ decode 0b001#3 = .ok .encu ∧ decode 0b010#3 = .ok .dec ∧
    decode 0b011#3 = .ok .decu ∧ decode 0b100#3 = .ok .decp ∧ decode 0b101#3 = .ok .valid ∧
    decode 0b110#3 = .ok .isb32 ∧ decode 0b111#3 = .error .reservedOpcode ∧
    decodeTableWord 8 0b110 = some .isb32 ∧ decodeTableWord 8 0b111 = none ∧
    decodeTableWord 8 0b1000 = none

/-- Decoding a command's word gives the command back, and a word that decodes to a command is that
command's word (R56). -/
def Obligations.DecodeInvertsEncode : Prop :=
  (∀ i : Instr, i.wellFormed = true → decode (encode i) = .ok i) ∧
    (∀ (w : Opcode) (i : Instr), decode w = .ok i → encode i = w)

/-- R126: a host write of opcode 7 to `CMD` is refused in every state, as a host step and as an access
to register index 0. -/
def Obligations.ReservedOpcodeRefused : Prop :=
  ∀ (s : State) (arg : Nat),
    (∃ r, hostStep (.start 7#3) s = .refused r) ∧ (∃ r, busStep (.write 0 arg 7) s = .refused r)

/-! ### The tables -/

/-- R65: the contents of `ENC_ROM`, by its closed form and by the alphabet string. The numeric codes are
the ASCII ones, which the spec marks as general knowledge: PRESUMED, log entry 10. -/
def Obligations.EncodeTableIsAlphabet : Prop :=
  (∀ v : Sym, v.toNat ≤ 25 → (encRom v).toNat = 0x41 + v.toNat) ∧
    (∀ v : Sym, 26 ≤ v.toNat → (encRom v).toNat = 0x32 + (v.toNat - 26)) ∧
    (List.range 32).map (fun n => (encRom (BitVec.ofNat 5 n)).toNat) =
      "ABCDEFGHIJKLMNOPQRSTUVWXYZ234567".toList.map Char.toNat

/-- R66: `ENC_ROM` is injective and never yields the pad character. -/
def Obligations.EncodeTableInjective : Prop :=
  (∀ v w : Sym, encRom v = encRom w → v = w) ∧ ∀ v : Sym, encRom v ≠ 0x3D#8

/-- R67 and R69: which codes are a value, the pad, or invalid; lower-case letters, the digits 0, 1, 8
and 9, space, line feed, carriage return, NUL and the codes from `0x80` are invalid. The numeric codes
but `0x3D` are the ASCII ones: PRESUMED, log entry 10. -/
def Obligations.DecodeTableClassifies : Prop :=
  (∀ (b : Byte) (v : Sym), decRom b = .value v ↔ b = encRom v) ∧
    (∀ b : Byte, decRom b = .padding ↔ b = 0x3D#8) ∧
    (∀ b : Byte, decRom b = .invalid ↔ b ≠ 0x3D#8 ∧ ∀ v, b ≠ encRom v) ∧
    (∀ b : Byte, 0x61 ≤ b.toNat ∧ b.toNat ≤ 0x7A ∨ 0x80 ≤ b.toNat → decRom b = .invalid) ∧
    (∀ b ∈ [0x30#8, 0x31#8, 0x38#8, 0x39#8, 0x20#8, 0x0A#8, 0x0D#8, 0x00#8], decRom b = .invalid)

/-- R68: of the 256 codes exactly 32 are values, each value once, exactly one is the pad, and the
other 223 are invalid. -/
def Obligations.DecodeTableCounts : Prop :=
  ((List.range 256).map (fun n => decRom (BitVec.ofNat 8 n))).countP
      (fun e => e != .padding && e != .invalid) = 32 ∧
    (∀ v : Sym, ∃ b, decRom b = .value v ∧ ∀ c, decRom c = .value v → c = b) ∧
    ((List.range 256).map (fun n => decRom (BitVec.ofNat 8 n))).count .padding = 1 ∧
    decRom 0x3D#8 = .padding ∧
    ((List.range 256).map (fun n => decRom (BitVec.ofNat 8 n))).count .invalid = 223

/-- R70, which the spec derives from R65 and R67: the decode table inverts the encode table. -/
def Obligations.TablesAgree : Prop :=
  (∀ v : Sym, decRom (encRom v) = .value v) ∧
    ∀ (b : Byte) (v : Sym), decRom b = .value v → encRom v = b

/-! ### The 40-bit group -/

/-- R49 and R50: where each byte and each symbol value lies in the accumulator. -/
def Obligations.AccumulatorHoldsFields : Prop :=
  (∀ b0 b1 b2 b3 b4 : Byte, ∀ k (h : k < 5),
    (accOfBytes b0 b1 b2 b3 b4).extractLsb' (32 - 8 * k) 8 = [b0, b1, b2, b3, b4][k]) ∧
  (∀ s0 s1 s2 s3 s4 s5 s6 s7 : Sym, ∀ j (h : j < 8),
    (accOfSyms [s0, s1, s2, s3, s4, s5, s6, s7]).extractLsb' (35 - 5 * j) 5 =
      [s0, s1, s2, s3, s4, s5, s6, s7][j])

/-- R51, which the spec derives from R49 and R50: each symbol value in terms of byte bits, and each byte
in terms of symbol bits. -/
def Obligations.GroupBitLayout : Prop :=
  (∀ b0 b1 b2 b3 b4 : Byte,
    symAt (accOfBytes b0 b1 b2 b3 b4) 0 = b0.extractLsb' 3 5 ∧
    symAt (accOfBytes b0 b1 b2 b3 b4) 1 = b0.extractLsb' 0 3 ++ b1.extractLsb' 6 2 ∧
    symAt (accOfBytes b0 b1 b2 b3 b4) 2 = b1.extractLsb' 1 5 ∧
    symAt (accOfBytes b0 b1 b2 b3 b4) 3 = b1.extractLsb' 0 1 ++ b2.extractLsb' 4 4 ∧
    symAt (accOfBytes b0 b1 b2 b3 b4) 4 = b2.extractLsb' 0 4 ++ b3.extractLsb' 7 1 ∧
    symAt (accOfBytes b0 b1 b2 b3 b4) 5 = b3.extractLsb' 2 5 ∧
    symAt (accOfBytes b0 b1 b2 b3 b4) 6 = b3.extractLsb' 0 2 ++ b4.extractLsb' 5 3 ∧
    symAt (accOfBytes b0 b1 b2 b3 b4) 7 = b4.extractLsb' 0 5) ∧
  (∀ s0 s1 s2 s3 s4 s5 s6 s7 : Sym,
    byteAt (accOfSyms [s0, s1, s2, s3, s4, s5, s6, s7]) 0 = s0 ++ s1.extractLsb' 2 3 ∧
    byteAt (accOfSyms [s0, s1, s2, s3, s4, s5, s6, s7]) 1 =
      s1.extractLsb' 0 2 ++ s2 ++ s3.extractLsb' 4 1 ∧
    byteAt (accOfSyms [s0, s1, s2, s3, s4, s5, s6, s7]) 2 =
      s3.extractLsb' 0 4 ++ s4.extractLsb' 1 4 ∧
    byteAt (accOfSyms [s0, s1, s2, s3, s4, s5, s6, s7]) 3 =
      s4.extractLsb' 0 1 ++ s5 ++ s6.extractLsb' 3 2 ∧
    byteAt (accOfSyms [s0, s1, s2, s3, s4, s5, s6, s7]) 4 = s6.extractLsb' 0 3 ++ s7)

/-- The tables of R52, R53 and R54: `q`, `p`, `rq`, `A`, `K` and the legal sizes. -/
def Obligations.TailTables : Prop :=
  [0, 1, 2, 3, 4].map dataSymbols = [0, 2, 4, 5, 7] ∧
    [0, 1, 2, 3, 4].map padSymbols = [0, 6, 4, 3, 1] ∧
    (∀ r, 1 ≤ r → r ≤ 4 → padSymbols r = 8 - dataSymbols r) ∧
    (∀ r, r ≤ 4 → dataSymbols r = (8 * r + 4) / 5) ∧
    [0, 1, 2, 3, 4].map (fun r => 5 * dataSymbols r - 8 * r) = [0, 2, 4, 1, 3] ∧
    [2, 4, 5, 7, 8].map blockByteCount = [1, 2, 3, 4, 5] ∧
    (∀ r, 1 ≤ r → r ≤ 4 → blockByteCount (dataSymbols r) = r) ∧
    [0, 2, 4, 5, 7].map appendCount = [0, 6, 4, 3, 1] ∧
    [4, 5, 7].map padWindow = [2, 3, 1] ∧
    (List.range 8).filter illegalSize = [1, 3, 6]

/-! ### The encoder -/

/-- R78: `ENCODE` by its pseudocode, group `k` being the bytes `B[5k]` to `B[5k+4]`; and every
character of the result is a data symbol, or a pad at the end in the padded variant only. -/
def Obligations.EncodeByGroups : Prop :=
  ∀ (padded : Bool) (x : List Byte),
    encodeText padded x =
      (List.range (x.length / 5)).flatMap (fun k =>
        pack5 (x.getD (5 * k) 0#8) (x.getD (5 * k + 1) 0#8) (x.getD (5 * k + 2) 0#8)
          (x.getD (5 * k + 3) 0#8) (x.getD (5 * k + 4) 0#8)) ++
      (if x.length % 5 ≠ 0 then tailText padded (x.drop (5 * (x.length / 5))) else []) ∧
    ∃ (v : List Sym) (k : Nat), encodeText padded x = v.map encRom ++ List.replicate k 0x3D#8 ∧
      (padded = false → k = 0)

/-- The encoder regroups bits: the data symbols of the text carry exactly the bits of the input, in
order, followed by the zero bits of the last symbol. Derived from R49 to R51, R76 to R78. -/
def Obligations.EncoderRegroupsBits : Prop :=
  ∀ x : List Byte, ∃ v : List Sym,
    encodeText false x = v.map encRom ∧ v.length = (8 * x.length + 4) / 5 ∧
      bitsOfSyms v =
        bitsOfBytes x ++ List.replicate (5 * v.length - 8 * x.length) false

/-- R81: the lengths of the two encodings. -/
def Obligations.EncodedLengths : Prop :=
  ∀ x : List Byte,
    (encodeText true x).length = 8 * ((x.length + 4) / 5) ∧
    (encodeText true x).length % 8 = 0 ∧
    (encodeText false x).length = 8 * (x.length / 5) + [0, 2, 4, 5, 7].getD (x.length % 5) 0 ∧
    (encodeText true x).length =
      8 * (x.length / 5) + [0, 8, 8, 8, 8].getD (x.length % 5) 0

/-- R82 and R86: the empty argument in both encoder variants and all three decoder variants gives the
empty result and no error. -/
def Obligations.EmptyArgumentResults : Prop :=
  encodeText true [] = [] ∧ encodeText false [] = [] ∧ decodeTolerant [] = .ok [] ∧
    decodeUnpadded [] = .ok [] ∧ decodePadded [] = .ok [] ∧
    ∀ s : State, s.Ready [] → ∀ i ∈ [Instr.enc, .encu, .dec, .decu, .decp],
      exec i s = .next { s with out := [], err := none, res := false, status := .done }

/-- R84: the unpadded text is the padded text without its pad characters, and holds none. -/
def Obligations.UnpaddedIsPaddedStripped : Prop :=
  ∀ x : List Byte,
    0x3D#8 ∉ encodeText false x ∧
    encodeText true x =
      encodeText false x ++ List.replicate (padSymbols (x.length % 5)) 0x3D#8 ∧
    encodeText false x =
      (encodeText true x).take (8 * (x.length / 5) + dataSymbols (x.length % 5))

/-! ### The decoder -/

/-- R131: `InvalidSize` is raised by all three decoder commands exactly when the length is positive and
1, 3 or 6 modulo 8, whatever the characters are. -/
def Obligations.InvalidSizeExactly : Prop :=
  ∀ t : List Byte,
    (decodeTolerant t = .error .invalidSize ↔
      0 < t.length ∧ (t.length % 8 = 1 ∨ t.length % 8 = 3 ∨ t.length % 8 = 6)) ∧
    (decodeUnpadded t = .error .invalidSize ↔
      0 < t.length ∧ (t.length % 8 = 1 ∨ t.length % 8 = 3 ∨ t.length % 8 = 6)) ∧
    (decodePadded t = .error .invalidSize ↔
      0 < t.length ∧ (t.length % 8 = 1 ∨ t.length % 8 = 3 ∨ t.length % 8 = 6))

/-- R133: `RequiresPadding` is raised by the padded-only decoder exactly when the length is positive
and 2, 4, 5 or 7 modulo 8, and by no other command. -/
def Obligations.RequiresPaddingExactly : Prop :=
  ∀ t : List Byte,
    (decodePadded t = .error .requiresPadding ↔
      0 < t.length ∧
        (t.length % 8 = 2 ∨ t.length % 8 = 4 ∨ t.length % 8 = 5 ∨ t.length % 8 = 7)) ∧
    decodeTolerant t ≠ .error .requiresPadding ∧ decodeUnpadded t ≠ .error .requiresPadding ∧
    ∀ (i : Instr) (s u : State), exec i s = .next u → u.err = some .requiresPadding → i = .decp

/-- R89: the tolerant pre-check in words: a pad may stand only in the last `K` characters of the tail,
and those are all pads or none of them is; for lengths 0 and 2 modulo 8 there is no check. -/
def Obligations.TolerantPrecheckMeaning : Prop :=
  ∀ t : List Byte, 0 < t.length →
    ((t.length % 8 = 0 ∨ t.length % 8 = 2) → precheckTolerant t = none) ∧
    (∀ rmod K, (rmod, K) ∈ [(4, 2), (5, 3), (7, 1)] → t.length % 8 = rmod →
      (precheckTolerant t = none ↔
        (∀ c ∈ (t.drop (t.length - rmod)).take (rmod - K), c ≠ 0x3D#8) ∧
        ((∀ c ∈ t.drop (t.length - K), c = 0x3D#8) ∨
          (∀ c ∈ t.drop (t.length - K), c ≠ 0x3D#8))) ∧
      (precheckTolerant t = none ∨ precheckTolerant t = some .invalidPadding))

/-- R96: the unpadded-only pre-check. For length 0 modulo 8 it fails exactly when the last character is
a pad; for 2 it makes no check, and a pad in the two-character tail is rejected all the same; for 4, 5
and 7 it fails exactly when a pad stands anywhere in the tail. It fails with `InvalidPadding` only. -/
def Obligations.UnpaddedPrecheckMeaning : Prop :=
  ∀ t : List Byte, 0 < t.length →
    (t.length % 8 = 0 →
      (precheckUnpadded t = some .invalidPadding ↔ t.getD (t.length - 1) 0#8 = 0x3D#8)) ∧
    (t.length % 8 = 2 → precheckUnpadded t = none ∧
      (0x3D#8 ∈ t.drop (t.length - 2) → ∃ k, decodeUnpadded t = .error k)) ∧
    ((t.length % 8 = 4 ∨ t.length % 8 = 5 ∨ t.length % 8 = 7) →
      (precheckUnpadded t = some .invalidPadding ↔
        0x3D#8 ∈ t.drop (t.length - t.length % 8))) ∧
    (precheckUnpadded t = none ∨ precheckUnpadded t = some .invalidPadding)

/-- `UNPACK` fails with the kind of the first character, in index order, that meets one of the four cases
of R91, and succeeds when none does (R91; R94 and R99 for the order; R138 "the fault at the lower index
wins"). -/
def Obligations.FirstFaultDecidesUnpack : Prop :=
  ∀ n : List Byte, 0 < n.length → n.length % 8 = 0 →
    (∀ k, unpack n = .error k ↔
      ∃ i, i < n.length ∧ faultAt n i = some k ∧ ∀ j, j < i → faultAt n j = none) ∧
    ((∃ r, unpack n = .ok r) ↔ ∀ i, i < n.length → faultAt n i = none)

/-- R94: `UNPACK` is the two loops of the rule's pseudocode, with the accumulator written field by
field, for every text of one or more whole blocks. -/
def Obligations.UnpackIsTheLoop : Prop :=
  ∀ n : List Byte, 0 < n.length → n.length % 8 = 0 → unpack n = loopUnpack n

/-- R135, which the spec derives from R130 to R134: which command can end in which kind. -/
def Obligations.ErrorKindsByCommand : Prop :=
  (∀ s t, exec .enc s = .next t → t.err = none) ∧
    (∀ s t, exec .encu s = .next t → t.err = none) ∧
    (∀ s t, exec .valid s = .next t → t.err = none) ∧
    (∀ s t, exec .isb32 s = .next t → t.err = none) ∧
    (∀ s t, exec .dec s = .next t → t.err ≠ some .requiresPadding) ∧
    (∀ s t, exec .decu s = .next t → t.err ≠ some .requiresPadding) ∧
    (∀ e ∈ [none, some ErrorKind.invalidSize, some .invalidPadding, some .invalidCharacter],
      (∃ s t, exec .dec s = .next t ∧ t.err = e) ∧ (∃ s t, exec .decu s = .next t ∧ t.err = e) ∧
        (∃ s t, exec .decp s = .next t ∧ t.err = e)) ∧
    (∃ s t, exec .decp s = .next t ∧ t.err = some .requiresPadding)

/-- R100: after an error the host can read no byte of a result. -/
def Obligations.NoPartialOutput : Prop :=
  ∀ (i : Instr) (s t : State), exec i s = .next t → t.err ≠ none →
    t.outLen = 0 ∧ t.res = false ∧
      ∀ j, j < capOut t.capIn → hostStep (.rout j) t = .next (t.give 0)

/-- R101, which the spec derives from R90 and R92: the length of a successful result, `d` being the number of data symbols in the final block
of the normalised text. -/
def Obligations.SuccessfulResultLength : Prop :=
  ∀ t r : List Byte, 0 < t.length →
    (decodeTolerant t = .ok r ∨ decodeUnpadded t = .ok r ∨ decodePadded t = .ok r) →
    r.length = 5 * ((t.length + 7) / 8 - 1) +
      blockByteCount (((normalise t).drop (8 * ((t.length + 7) / 8 - 1))).countP (· != 0x3D#8)) ∧
    r.length ≤ 5 * t.length / 8 ∧ 5 * t.length / 8 ≤ t.length

/-- R102, which the spec derives from R91 and R96: the unpadded-only decoder rejects every text that
holds a pad character, and with which kind. -/
def Obligations.UnpaddedRejectsEveryPad : Prop :=
  ∀ t : List Byte, 0x3D#8 ∈ t →
    (illegalSize (t.length % 8) = true → decodeUnpadded t = .error .invalidSize) ∧
    (illegalSize (t.length % 8) = false → precheckUnpadded t = none →
      unpack (normalise t) = .error .invalidCharacter →
      decodeUnpadded t = .error .invalidCharacter) ∧
    (illegalSize (t.length % 8) = false →
      ¬(precheckUnpadded t = none ∧ unpack (normalise t) = .error .invalidCharacter) →
      decodeUnpadded t = .error .invalidPadding)

/-- R103: the round trips, of which the third and fourth are derived by the spec, and that the
converse fails. -/
def Obligations.RoundTrip : Prop :=
  (∀ x : List Byte,
    decodeTolerant (encodeText true x) = .ok x ∧ decodeUnpadded (encodeText false x) = .ok x ∧
      decodeTolerant (encodeText false x) = .ok x ∧ decodePadded (encodeText true x) = .ok x) ∧
  (∃ t r : List Byte, decodeTolerant t = .ok r ∧ encodeText true r ≠ t ∧ encodeText false r ≠ t)

/-- R104, which the spec derives from R87 to R98: what each decoder command does with a text of data symbols followed by `k` pads. -/
def Obligations.CleanTextTable : Prop :=
  ∀ (v : List Sym) (k : Nat) (t : List Byte),
    t = v.map encRom ++ List.replicate k 0x3D#8 → 0 < t.length →
    ((t.length % 8 = 1 ∨ t.length % 8 = 3 ∨ t.length % 8 = 6) →
      decodeTolerant t = .error .invalidSize ∧ decodeUnpadded t = .error .invalidSize ∧
        decodePadded t = .error .invalidSize) ∧
    (t.length % 8 = 0 → k = 0 → ∃ r, decodeTolerant t = .ok r ∧ decodeUnpadded t = .ok r ∧
      decodePadded t = .ok r ∧ r.length = 5 * t.length / 8) ∧
    (t.length % 8 = 0 → k ∈ [1, 3, 4, 6] → ∃ r, decodeTolerant t = .ok r ∧
      decodeUnpadded t = .error .invalidPadding ∧ decodePadded t = .ok r ∧
      r.length = 5 * (t.length / 8 - 1) + blockByteCount (8 - k)) ∧
    (t.length % 8 = 0 → k ∉ [0, 1, 3, 4, 6] → decodeTolerant t = .error .invalidPadding ∧
      decodeUnpadded t = .error .invalidPadding ∧ decodePadded t = .error .invalidPadding) ∧
    ((t.length % 8 = 2 ∨ t.length % 8 = 4 ∨ t.length % 8 = 5 ∨ t.length % 8 = 7) →
      decodePadded t = .error .requiresPadding ∧
      (k = 0 → ∃ r, decodeTolerant t = .ok r ∧ decodeUnpadded t = .ok r ∧
        r.length = 5 * (t.length / 8) + blockByteCount (t.length % 8)) ∧
      (k ≠ 0 → decodeUnpadded t = .error .invalidPadding) ∧
      ((t.length % 8 = 4 ∧ k = 2 ∨ t.length % 8 = 5 ∧ k = 3) →
        ∃ r, decodeTolerant t = .ok r ∧ r.length = 5 * (t.length / 8) + 1) ∧
      (k ≠ 0 → ¬(t.length % 8 = 4 ∧ k = 2 ∨ t.length % 8 = 5 ∧ k = 3) →
        decodeTolerant t = .error .invalidPadding))

/-- R93: the unused low bits of the last data symbol are ignored, padded or not; four texts that decode
to the one byte `0x66`, of which the encoder produces the first. -/
def Obligations.UnusedBitsIgnored : Prop :=
  (∀ (p : List Sym) (v w : Sym) (d : Nat), d ∈ [2, 4, 5, 7] → p.length % 8 = d - 1 →
    v.toNat / 2 ^ (5 * d - 8 * blockByteCount d) = w.toNat / 2 ^ (5 * d - 8 * blockByteCount d) →
    ∃ r, ∀ u ∈ [v, w],
      decodeTolerant ((p ++ [u]).map encRom ++ List.replicate (8 - d) 0x3D#8) = .ok r ∧
      decodePadded ((p ++ [u]).map encRom ++ List.replicate (8 - d) 0x3D#8) = .ok r ∧
      decodeTolerant ((p ++ [u]).map encRom) = .ok r ∧
      decodeUnpadded ((p ++ [u]).map encRom) = .ok r) ∧
  (∀ u ∈ [24#5, 25#5, 26#5, 27#5],
    decodeTolerant ([12#5, u].map encRom ++ List.replicate 6 0x3D#8) = .ok [0x66#8]) ∧
  encodeText true [0x66#8] = [12#5, 24#5].map encRom ++ List.replicate 6 0x3D#8

/-- R99 and R138 with R95, R97 and R98: the first check that fails gives the kind, whatever stands
elsewhere in the text; when the size is legal and the variant's own check passes, the result, error
kind or bytes, is that of `UNPACK` on the normalised text of R90 (for `DECP` on the text itself), whose
own first fault is `FirstFaultDecidesUnpack`; with the examples of R99. -/
def Obligations.EarlierCheckDecides : Prop :=
  (∀ t : List Byte, 0 < t.length →
    (illegalSize (t.length % 8) = true → decodeTolerant t = .error .invalidSize ∧
      decodeUnpadded t = .error .invalidSize ∧ decodePadded t = .error .invalidSize) ∧
    (illegalSize (t.length % 8) = false → ∀ k, precheckTolerant t = some k →
      decodeTolerant t = .error k) ∧
    (illegalSize (t.length % 8) = false → ∀ k, precheckUnpadded t = some k →
      decodeUnpadded t = .error k) ∧
    (illegalSize (t.length % 8) = false → t.length % 8 ≠ 0 →
      decodePadded t = .error .requiresPadding) ∧
    (∀ rmod appended, (rmod, appended) ∈ [(0, 0), (2, 6), (4, 4), (5, 3), (7, 1)] →
      t.length % 8 = rmod →
      normalise t = t ++ List.replicate appended 0x3D#8 ∧
      (precheckTolerant t = none →
        decodeTolerant t = unpack (t ++ List.replicate appended 0x3D#8)) ∧
      (precheckUnpadded t = none →
        decodeUnpadded t = unpack (t ++ List.replicate appended 0x3D#8))) ∧
    (t.length % 8 = 0 → decodePadded t = unpack t)) ∧
  decodeTolerant [0x4B#8, 0x4E#8, 0x25#8, 0x57#8, 0x3D#8, 0x3D#8, 0x3D#8] =
    .error .invalidPadding ∧
  decodeUnpadded [0x6B#8, 0x6E#8, 0x32#8, 0x77#8, 0x34#8, 0x3D#8, 0x3D#8, 0x3D#8] =
    .error .invalidPadding ∧
  decodeTolerant [0x6B#8, 0x6E#8, 0x32#8, 0x77#8, 0x34#8, 0x3D#8, 0x3D#8, 0x3D#8] =
    .error .invalidCharacter

/-! ### The validator -/

/-- R106 and R107: a text is shape-valid exactly when it is data symbols followed by a run of `k` pads
with (length modulo 8, `k`) one of the twelve legal pairs. -/
def Obligations.ShapeValidMeaning : Prop :=
  ∀ t : List Byte, shapeValid t = true ↔
    ∃ (v : List Sym) (k : Nat), t = v.map encRom ++ List.replicate k 0x3D#8 ∧
      (t.length % 8, k) ∈ [(0, 0), (0, 1), (0, 3), (0, 4), (0, 6), (2, 0), (4, 0), (4, 2), (5, 0),
        (5, 3), (7, 0), (7, 1)]

/-- R111, which the spec derives from R104, R106, R107 and R109: `ISB32` implies `VALID`; it is true exactly when the tolerant decode succeeds, which is
exactly on data symbols and a trailing pad run of one of eleven shapes; and the shape-valid texts on
which it is false are those of length 7 modulo 8 with one pad. -/
def Obligations.IsBase32IsDecodability : Prop :=
  (∀ t : List Byte,
    (isBase32 t = true → shapeValid t = true) ∧
    (isBase32 t = true ↔ ∃ r, decodeTolerant t = .ok r) ∧
    (isBase32 t = true ↔ ∃ (v : List Sym) (k : Nat),
      t = v.map encRom ++ List.replicate k 0x3D#8 ∧
      (t.length % 8, k) ∈ [(0, 0), (0, 1), (0, 3), (0, 4), (0, 6), (2, 0), (4, 0), (4, 2), (5, 0),
        (5, 3), (7, 0)]) ∧
    ((shapeValid t = true ∧ isBase32 t = false) ↔
      ∃ v : List Sym, t = v.map encRom ++ [0x3D#8] ∧ t.length % 8 = 7)) ∧
  shapeValid [0x41#8, 0x41#8, 0x41#8, 0x41#8, 0x41#8, 0x41#8, 0x3D#8] = true ∧
  isBase32 [0x41#8, 0x41#8, 0x41#8, 0x41#8, 0x41#8, 0x41#8, 0x3D#8] = false

/-! ### COMPLETE -/

/-- R79: `ENC` completes for every argument, with the padded text as its result and nothing else
changed but `STATUS`; its corner cases and its example. -/
def Obligations.EncCompletes : Prop :=
  (∀ (s : State) (x : List Byte), s.Ready x →
    exec .enc s =
      .next { s with out := encodeText true x, err := none, res := false, status := .done }) ∧
  encodeText true [] = [] ∧
  (∀ x : List Byte, x.length % 5 = 0 → 0x3D#8 ∉ encodeText true x) ∧
  (∀ x : List Byte, (encodeText true x).length % 8 = 0) ∧
  encodeText true (List.replicate 5 0x00#8) = List.replicate 8 (encRom 0#5) ∧
  encodeText true (List.replicate 5 0xFF#8) = List.replicate 8 (encRom 31#5) ∧
  encodeText true [0x53#8, 0x75#8, 0x6E#8] =
    [10#5, 13#5, 26#5, 22#5, 28#5].map encRom ++ List.replicate 3 0x3D#8

/-- R80: `ENCU` completes for every argument, with the unpadded text as its result and nothing else
changed but `STATUS`; its corner cases and its example. -/
def Obligations.EncuCompletes : Prop :=
  (∀ (s : State) (x : List Byte), s.Ready x →
    exec .encu s =
      .next { s with out := encodeText false x, err := none, res := false, status := .done }) ∧
  encodeText false [] = [] ∧
  (∀ x : List Byte, 0x3D#8 ∉ encodeText false x) ∧
  (∀ x : List Byte, x.length % 5 = 0 → encodeText false x = encodeText true x) ∧
  encodeText false [0x53#8, 0x75#8, 0x6E#8] = [10#5, 13#5, 26#5, 22#5, 28#5].map encRom

/-- R85: `DEC`, `DECU` and `DECP` complete for every argument: on `Ok(R)` with `R` as the result and no
error, on `Err(k)` with no byte and the kind `k`; `IN` and `IN_LEN` are unchanged. -/
def Obligations.DecodersComplete : Prop :=
  ∀ (s : State) (x : List Byte), s.Ready x →
    ∀ c ∈ [(Instr.dec, decodeTolerant x), (.decu, decodeUnpadded x), (.decp, decodePadded x)],
      (∀ r, c.2 = .ok r →
        exec c.1 s = .next { s with out := r, err := none, res := false, status := .done }) ∧
      (∀ k, c.2 = .error k →
        exec c.1 s = .next { s with out := [], err := some k, res := false, status := .done })

/-- R105: `VALID` and `ISB32` complete for every argument, with the boolean in `RES`, no byte and no
error; `IN` and `IN_LEN` are unchanged. The booleans are those of R108 and R109. -/
def Obligations.ValidatorsComplete : Prop :=
  ∀ (s : State) (x : List Byte), s.Ready x →
    exec .valid s =
      .next { s with out := [], err := none, res := shapeValid x, status := .done } ∧
    exec .isb32 s =
      .next { s with out := [], err := none, res := (shapeValid x && succeeds (decodeTolerant x)),
                     status := .done }

/-- R119: the engine's step performs the operation of `CMD` on the argument and writes `OUT`,
`OUT_LEN`, `ERR`, `RES` and `STATUS`; it is enabled exactly while `STATUS = BUSY`. -/
def Obligations.CompletePerformsOperation : Prop :=
  (∀ (s : State) (x : List Byte) (i : Instr), s.Ready x → decode s.cmd = .ok i →
    engineStep s = .next { s with out := (commandResult i x).out, err := (commandResult i x).err,
                                  res := (commandResult i x).res, status := .done }) ∧
  (∀ s t : State, s.status ≠ .busy → engineStep s ≠ .next t) ∧
  (∀ s : State, s.Inv → s.status = .busy → ∃ t, engineStep s = .next t)

/-- The frame of all seven commands (R24, R44, R121): a command that completes leaves the capacity,
every cell of `IN`, `IN_LEN` and `CMD` unchanged, and the schedule and the host's record with them;
only `OUT`, `ERR`, `RES` and `STATUS` change, and `STATUS` goes from `BUSY` to `DONE`. -/
def Obligations.CommandFrame : Prop :=
  ∀ (i : Instr) (s t : State), exec i s = .next t →
    t.capIn = s.capIn ∧ (∀ a, Memory.read t.inBuf a = Memory.read s.inBuf a) ∧
      t.inBuf = s.inBuf ∧ t.inLen = s.inLen ∧ t.cmd = s.cmd ∧ t.pending = s.pending ∧
      t.returned = s.returned ∧ s.status = .busy ∧ t.status = .done

/-- The result of an operation is a function of `CMD` and `IN[0..IN_LEN)` alone (R5, R160). Two states
that agree on these, whatever else differs, complete with the same result. -/
def Obligations.ResultDependsOnArgumentAlone : Prop :=
  ∀ s u t : State, engineStep s = .next t → u.status = .busy → u.inLen ≤ u.capIn →
    u.cmd = s.cmd → u.inLen = s.inLen →
    (∀ a, a < s.inLen → Memory.read u.inBuf a = Memory.read s.inBuf a) →
    ∃ w, engineStep u = .next w ∧ w.out = t.out ∧ w.err = t.err ∧ w.res = t.res ∧
      w.status = t.status

/-- Every operation completes (R123): after any number of polls, each of which reads `BUSY`, the
operation is done and its result is there. That the engine moves when the schedule has run out is
the model's choice, log entry 2. -/
def Obligations.EveryOperationCompletes : Prop :=
  ∀ (s : State) (n : Nat), s.Inv → s.status = .busy →
    s.pending = List.replicate n (.host .rstat) →
    ∃ (t : State) (i : Instr) (x : List Byte), Host.Core.run Sys2Proof.core (n + 1) s = .next t ∧
      decode s.cmd = .ok i ∧ s.Holds x ∧ t.status = .done ∧ t.out = (commandResult i x).out ∧
      t.err = (commandResult i x).err ∧ t.res = (commandResult i x).res ∧
      t.returned = s.returned ++ List.replicate n 1

/-! ### Host steps -/

/-- R113: `WIN i, b` stores `b` in cell `i` and changes nothing else; it is refused while `BUSY` and
beyond `CAP_IN`. -/
def Obligations.WinWritesOneCell : Prop :=
  ∀ (s : State) (i : Nat) (b : Byte),
    (s.status ≠ .busy → i < s.capIn → ∃ m, hostStep (.win i b) s = .next { s with inBuf := m } ∧
      Memory.read m i = some b ∧ ∀ j, j ≠ i → Memory.read m j = Memory.read s.inBuf j) ∧
    (s.status = .busy ∨ s.capIn ≤ i → ∃ r, hostStep (.win i b) s = .refused r)

/-- R114: `WLEN n` stores `n` in `IN_LEN`, also above `CAP_IN`, and changes nothing else; it is refused
while `BUSY`, and when `n` does not fit in `LENW` bits (93 B6). -/
def Obligations.WlenWritesLength : Prop :=
  ∀ (s : State) (n : Nat),
    (s.status ≠ .busy → n < 2 ^ lenW s.capIn →
      hostStep (.wlen n) s = .next { s with inLen := n }) ∧
    (s.status = .busy ∨ 2 ^ lenW s.capIn ≤ n → ∃ r, hostStep (.wlen n) s = .refused r)

/-- R115 and R116: `START` is enabled exactly under conditions (a) to (d); it stores the opcode, sets
`STATUS` to `BUSY` and changes nothing else. -/
def Obligations.StartEnabledExactly : Prop :=
  ∀ (s : State) (op : Opcode),
    ((s.status = .idle ∨ s.status = .done) → op.toNat ≤ 6 → s.inLen ≤ s.capIn →
      (∀ i, i < s.inLen → ∃ b, Memory.read s.inBuf i = some b) →
      hostStep (.start op) s = .next { s with cmd := op, status := .busy }) ∧
    (¬((s.status = .idle ∨ s.status = .done) ∧ op.toNat ≤ 6 ∧ s.inLen ≤ s.capIn ∧
        ∀ i, i < s.inLen → ∃ b, Memory.read s.inBuf i = some b) →
      ∃ r, hostStep (.start op) s = .refused r)

/-- R117 and R120: `RSTAT` is enabled in every state, returns `STATUS` and changes nothing; while `BUSY`
every other host step is refused. -/
def Obligations.OnlyStatusReadWhileBusy : Prop :=
  ∀ s : State,
    hostStep .rstat s = .next { s with returned := s.returned ++
      [match s.status with | .idle => 0 | .busy => 1 | .done => 2] } ∧
    (s.status = .busy → ∀ h : HostStep, h ≠ .rstat → ∃ r, hostStep h s = .refused r)

/-- R118 and R36: each read returns its register's value and changes nothing; `ROUT` is gated by
`OUT_LEN`; in `IDLE` the results read as their reset values; all are refused while `BUSY`. -/
def Obligations.ResultReads : Prop :=
  ∀ s : State,
    (s.status ≠ .busy →
      hostStep .rlen s = .next { s with returned := s.returned ++ [s.inLen] } ∧
      hostStep .rerr s = .next { s with returned := s.returned ++ [errCode s.err] } ∧
      hostStep .rres s = .next { s with returned := s.returned ++ [if s.res then 1 else 0] } ∧
      hostStep .rolen s = .next { s with returned := s.returned ++ [s.out.length] } ∧
      (∀ i (h : i < s.out.length), i < capOut s.capIn →
        hostStep (.rout i) s = .next { s with returned := s.returned ++ [s.out[i].toNat] }) ∧
      (∀ i, s.out.length ≤ i → i < capOut s.capIn →
        hostStep (.rout i) s = .next { s with returned := s.returned ++ [0] })) ∧
    (s.R26 → s.status = .idle → errCode s.err = 0 ∧ s.res = false ∧ s.out = []) ∧
    (s.status = .busy → ∀ h ∈ [HostStep.rlen, .rerr, .rres, .rolen], ∃ r, hostStep h s = .refused r) ∧
    (s.status = .busy → ∀ i, ∃ r, hostStep (.rout i) s = .refused r)

/-- R37: the three index hazards are refused in every state. -/
def Obligations.IndexOutOfRangeRefused : Prop :=
  ∀ s : State,
    (∀ i b, s.capIn ≤ i → ∃ r, hostStep (.win i b) s = .refused r) ∧
    (∀ i, capOut s.capIn ≤ i → ∃ r, hostStep (.rout i) s = .refused r) ∧
    (∀ k arg, 8 ≤ k → ∃ r, busStep (.read k arg) s = .refused r) ∧
    (∀ k arg v, 8 ≤ k → ∃ r, busStep (.write k arg v) s = .refused r)

/-- The register index map of R35: which host step each access is; an access the table of R24 does not
list is refused. That such an access, and a value too wide for its register, is refused is the model's
reading, log entry 8. -/
def Obligations.RegisterIndexMap : Prop :=
  ∀ (s : State) (arg v : Nat),
    (v < 8 → busStep (.write 0 arg v) s = hostStep (.start (BitVec.ofNat 3 v)) s) ∧
    busStep (.read 1 arg) s = hostStep .rstat s ∧
    busStep (.read 2 arg) s = hostStep .rerr s ∧
    busStep (.read 3 arg) s = hostStep .rres s ∧
    busStep (.read 4 arg) s = hostStep .rlen s ∧
    busStep (.write 4 arg v) s = hostStep (.wlen v) s ∧
    busStep (.read 5 arg) s = hostStep .rolen s ∧
    (v < 256 → busStep (.write 6 arg v) s = hostStep (.win arg (BitVec.ofNat 8 v)) s) ∧
    busStep (.read 7 arg) s = hostStep (.rout arg) s ∧
    (∀ k ∈ [0, 6], ∃ r, busStep (.read k arg) s = .refused r) ∧
    (∀ k ∈ [1, 2, 3, 5, 7], ∃ r, busStep (.write k arg v) s = .refused r) ∧
    (8 ≤ v → ∃ r, busStep (.write 0 arg v) s = .refused r) ∧
    (256 ≤ v → ∃ r, busStep (.write 6 arg v) s = .refused r)

/-- The frame of the host steps (R24, R113 to R118): no host step changes `OUT`, `ERR` or `RES`; only
`WIN` writes `IN`, and only its cell; only `WLEN` writes `IN_LEN`; only `START` writes `CMD` and
`STATUS`; only a read returns a value. -/
def Obligations.HostFrame : Prop :=
  ∀ (h : HostStep) (s t : State), hostStep h s = .next t →
    t.capIn = s.capIn ∧ t.out = s.out ∧ t.err = s.err ∧ t.res = s.res ∧ t.pending = s.pending ∧
    ((∀ i b, h ≠ .win i b) → t.inBuf = s.inBuf) ∧
    (∀ i b, h = .win i b → ∀ j, j ≠ i → Memory.read t.inBuf j = Memory.read s.inBuf j) ∧
    ((∀ n, h ≠ .wlen n) → t.inLen = s.inLen) ∧
    ((∀ op, h ≠ .start op) → t.cmd = s.cmd ∧ t.status = s.status) ∧
    ((∃ i b, h = .win i b) ∨ (∃ n, h = .wlen n) ∨ (∃ op, h = .start op) → t.returned = s.returned)

/-- R150 with the values of R25: reset in any state takes every piece of the block's state to its reset
value in one step (what is still to come and what the host has seen are not the block's, log entries 2
and 3); and the state after power-on has the same values. -/
def Obligations.ResetTakesEveryRegister : Prop :=
  (∀ s : State, eventStep .reset s =
    .next { capIn := s.capIn, inBuf := [], inLen := 0, out := [], cmd := 0#3, status := .idle,
            err := none, res := false, pending := s.pending, returned := s.returned }) ∧
  State.reset.inBuf = [] ∧ (∀ i, Memory.read State.reset.inBuf i = none) ∧ State.reset.inLen = 0 ∧
    State.reset.out = [] ∧ State.reset.outLen = 0 ∧ State.reset.cmd = 0#3 ∧
    State.reset.status = .idle ∧ State.reset.err = none ∧ State.reset.res = false

/-- The transitions of `STATUS` (R18): to `BUSY` by `START` from `IDLE` or `DONE`, from `BUSY` to `DONE`
by the engine, to `IDLE` by reset, and no other. -/
def Obligations.StatusTransitions : Prop :=
  ∀ s t : State, step s = .next t → t.status ≠ s.status →
    (s.status ≠ .busy ∧ t.status = .busy ∧
      ((∃ op, s.pending.head? = some (.host (.start op))) ∨
        ∃ arg v, s.pending.head? = some (.bus (.write 0 arg v)))) ∨
    (s.status = .busy ∧ t.status = .done ∧
      (s.pending.head? = some .complete ∨ s.pending = [])) ∨
    (t.status = .idle ∧ s.pending.head? = some .reset)

/-! ### Capacity, invariant, whole runs -/

/-- R4, which the spec derives from R81 and R101: no operation can overflow the output buffer. -/
def Obligations.NoOverflow : Prop :=
  ∀ (cap : Nat) (i : Instr) (x : List Byte), x.length ≤ cap →
    capOut cap = 8 * ((cap + 4) / 5) ∧ (commandResult i x).out.length ≤ capOut cap ∧
    (∀ r, decodeTolerant x = .ok r → r.length ≤ 5 * x.length / 8) ∧
    5 * x.length / 8 ≤ x.length

/-- `LENW` is the least width that holds every length up to `CAP_OUT` (00_scope.md section 4, D3); with
the values of the vectors, `CAP_IN = 16`. -/
def Obligations.LengthWidthIsLeast : Prop :=
  (∀ cap : Nat, capOut cap < 2 ^ lenW cap ∧ ∀ w, capOut cap < 2 ^ w → lenW cap ≤ w) ∧
    capOut 16 = 32 ∧ lenW 16 = 6

/-- The invariant holds right after reset, for every capacity and every schedule. -/
def Obligations.ResetMeetsInvariant : Prop :=
  State.reset.Inv ∧
    ∀ (cap : Nat) (events : List Event), ({ State.resetWith cap with pending := events } : State).Inv

/-- Every step keeps the invariant: what R26 says, the canonical form of the input buffer, no cell beyond
`CAP_IN`, and `IN_LEN` within its width. -/
def Obligations.StepKeepsInvariant : Prop :=
  ∀ s t : State, s.Inv → step s = .next t → t.Inv

/-- R26, which the spec derives from R25, R115, R116, R119 and R139: what holds in every reachable state, for every capacity and every schedule; the codes of
`STATUS` and `ERR` are the legal ones. -/
def Obligations.ReachableStatesMeetR26 : Prop :=
  ∀ (cap : Nat) (s : State), Reachable cap s →
    s.R26 ∧ s.status.code ≤ 2 ∧ errCode s.err ≤ 4 ∧ s.capIn = cap

/-- The engine never reads a cell that holds no byte (R13 with R116): in a state that meets the
invariant no step faults. -/
def Obligations.InvariantExcludesFaults : Prop :=
  ∀ (s : State) (f : Fault), s.Inv → step s ≠ .fault f

/-- The capacity is a parameter (R3, R27): no step changes it. -/
def Obligations.CapacityNeverChanges : Prop :=
  ∀ s t : State, step s = .next t → t.capIn = s.capIn

/-- The calling sequence of R124, for every command and every argument that fits, from every state
that is not busy: the polls read `BUSY` and then `DONE`, and the reads return the error code, the
boolean, the length and the bytes of the operation's result. -/
def Obligations.CallReturnsResult : Prop :=
  ∀ (s : State) (i : Instr) (x : List Byte) (polls : Nat) (rest : List Event),
    s.Inv → s.status ≠ .busy → x.length ≤ s.capIn →
    s.pending = callEvents i x polls (commandResult i x).out.length ++ rest →
    ∃ t : State,
      Host.Core.run Sys2Proof.core
        (callEvents i x polls (commandResult i x).out.length).length s = .next t ∧
      t.pending = rest ∧ t.status = .done ∧
      t.returned = s.returned ++ List.replicate polls 1 ++
        [2, errCode (commandResult i x).err, if (commandResult i x).res then 1 else 0,
          (commandResult i x).out.length] ++
        (commandResult i x).out.map BitVec.toNat
end

