-- ==== Sys2Proof/Laws/Codec.lean ====
section
/-! SUPPORT. The routines of the codec: their lengths, and what a successful unpacking is made of. -/

namespace Sys2Proof.Machine

/-- A group has eight characters (R76). -/
@[simp] theorem pack5_length (b0 b1 b2 b3 b4 : Byte) : (pack5 b0 b1 b2 b3 b4).length = 8 := rfl

/-- Every character of a group is the code of a symbol value (R76). -/
theorem pack5_eq_map (b0 b1 b2 b3 b4 : Byte) :
    pack5 b0 b1 b2 b3 b4 =
      ([0, 1, 2, 3, 4, 5, 6, 7].map (symAt (accOfBytes b0 b1 b2 b3 b4))).map encRom := rfl

/-- The code list of a tail has `q(r)` characters, and in the padded variant `p(r)` more (R77). -/
theorem tailText_length (padded : Bool) {t : List Byte} (h : t.length ≤ 4) :
    (tailText padded t).length =
      dataSymbols t.length + if padded then padSymbols t.length else 0 := by
  have hq : dataSymbols t.length ≤ 8 := by
    generalize t.length = n at h ⊢
    interval_cases n <;> decide
  cases padded <;> simp [tailText, hq]

/-- A block emits `rq(d)` bytes (R92). -/
theorem blockBytes_length {v : List Sym} (h : v.length ≤ 8) :
    (blockBytes v).length = blockByteCount v.length := by
  have : blockByteCount v.length ≤ 5 := by unfold blockByteCount; omega
  simp [blockBytes, this]

/-- Everything a successful unpacking of `nb + 1` blocks is made of (R94). -/
theorem unpackBlocks_succ_ok {nb : Nat} {t r : List Byte} (h : unpackBlocks (nb + 1) t = .ok r) :
    ∃ v u, walkBlock (nb == 0) [] false (t.take 8) = .ok v ∧ unpackBlocks nb (t.drop 8) = .ok u ∧
      r = blockBytes v ++ u := by
  unfold unpackBlocks at h
  split at h
  · cases h
  · rename_i v hv
    split at h
    · cases h
    · rename_i u hu
      exact ⟨v, u, hv, hu, (Except.ok.inj h).symm⟩

/-- A decode is `Ok` exactly when it succeeds. -/
theorem succeeds_iff (e : Except ErrorKind (List Byte)) : succeeds e = true ↔ ∃ r, e = .ok r := by
  cases e <;> simp [succeeds]

end Sys2Proof.Machine
end

