-- ==== Sys2Proof/Laws/Memory.lean ====
section
/-! SUPPORT. The input buffer: a read after a write, and that the one write there is keeps the
canonical form. -/

namespace Sys2Proof.Machine

/-- A cell just written holds the byte written (R113). -/
@[simp] theorem Memory.read_write_same (m : Memory) (i : Nat) (b : Byte) :
    Memory.read (Memory.write m i b) i = some b := by
  induction m with
  | nil => simp [Memory.write, Memory.read]
  | cons c m ih =>
    obtain ⟨a, c⟩ := c
    by_cases h1 : i < a
    · simp [Memory.write, Memory.read, h1]
    · by_cases h2 : a = i <;> simp [Memory.write, Memory.read, h1, h2, ih]

/-- Writing one cell leaves every other cell alone (R113). -/
theorem Memory.read_write_other (m : Memory) {i j : Nat} (b : Byte) (h : j ≠ i) :
    Memory.read (Memory.write m i b) j = Memory.read m j := by
  induction m with
  | nil => simp [Memory.write, Memory.read, Ne.symm h]
  | cons c m ih =>
    obtain ⟨a, c⟩ := c
    by_cases h1 : i < a
    · simp [Memory.write, Memory.read, h1, Ne.symm h]
    · by_cases h2 : a = i
      · subst h2; simp [Memory.write, Memory.read, Ne.symm h]
      · simp [Memory.write, Memory.read, h1, h2, ih]

/-- The cells listed after a write: the old ones and the one written. -/
theorem Memory.mem_write {m : Memory} {i : Nat} {b : Byte} {c : Host.Cell}
    (h : c ∈ Memory.write m i b) : c = (i, b) ∨ c ∈ m := by
  induction m with
  | nil => simpa [Memory.write] using h
  | cons d m ih =>
    obtain ⟨a, d⟩ := d
    by_cases h1 : i < a
    · simpa [Memory.write, h1] using h
    · by_cases h2 : a = i
      · simp only [Memory.write, h2, if_true, if_false, List.mem_cons, lt_self_iff_false] at h ⊢
        tauto
      · simp only [Memory.write, h1, h2, if_false, List.mem_cons] at h ⊢
        rcases h with h | h
        · exact .inr (.inl h)
        · exact (ih h).imp_right .inr

/-- The canonical form as a property of the list of cells. -/
theorem Memory.wf_iff (m : Memory) : Memory.wf m = true ↔ m.Pairwise (fun c d => c.1 < d.1) := by
  simp [Memory.wf, List.pairwise_map]

/-- A write keeps the canonical form. -/
theorem Memory.write_wf {m : Memory} (h : Memory.wf m = true) (i : Nat) (b : Byte) :
    Memory.wf (Memory.write m i b) = true := by
  rw [Memory.wf_iff] at h ⊢
  induction m with
  | nil => simp [Memory.write]
  | cons c m ih =>
    obtain ⟨a, c⟩ := c
    have h' := List.pairwise_cons.1 h
    by_cases h1 : i < a
    · simp only [Memory.write, h1, if_true]
      refine List.pairwise_cons.2 ⟨?_, h⟩
      intro d hd
      rcases List.mem_cons.1 hd with rfl | hd
      · exact h1
      · exact h1.trans (h'.1 d hd)
    · by_cases h2 : a = i
      · subst h2
        simp only [Memory.write, h1, if_true, if_false]
        exact List.pairwise_cons.2 ⟨h'.1, h'.2⟩
      · simp only [Memory.write, h1, h2, if_false]
        refine List.pairwise_cons.2 ⟨?_, ih h'.2⟩
        intro d hd
        rcases Memory.mem_write hd with rfl | hd
        · exact lt_of_le_of_ne (Nat.not_lt.1 h1) h2
        · exact h'.1 d hd

/-- The input buffer after reset is in canonical form: no cell is written (R25). -/
theorem State.resetWith_wf (cap : Nat) : Memory.wf (State.resetWith cap).inBuf = true := rfl

/-- The input buffer of the reset state is in canonical form. -/
theorem State.reset_wf : Memory.wf State.reset.inBuf = true := rfl

end Sys2Proof.Machine
end

