-- ==== Sys2Proof/Laws/State.lean ====
section
/-! SUPPORT. What each update of the state leaves in each field. -/

namespace Sys2Proof.Machine

section WriteBack
variable (s : State) (r : Result)

@[simp] theorem State.writeBack_capIn : (s.writeBack r).capIn = s.capIn := rfl
@[simp] theorem State.writeBack_inBuf : (s.writeBack r).inBuf = s.inBuf := rfl
@[simp] theorem State.writeBack_inLen : (s.writeBack r).inLen = s.inLen := rfl
@[simp] theorem State.writeBack_out : (s.writeBack r).out = r.out := rfl
@[simp] theorem State.writeBack_cmd : (s.writeBack r).cmd = s.cmd := rfl
@[simp] theorem State.writeBack_status : (s.writeBack r).status = .done := rfl
@[simp] theorem State.writeBack_err : (s.writeBack r).err = r.err := rfl
@[simp] theorem State.writeBack_res : (s.writeBack r).res = r.res := rfl
@[simp] theorem State.writeBack_pending : (s.writeBack r).pending = s.pending := rfl
@[simp] theorem State.writeBack_returned : (s.writeBack r).returned = s.returned := rfl

end WriteBack

section Give
variable (s : State) (v : Nat)

@[simp] theorem State.give_capIn : (s.give v).capIn = s.capIn := rfl
@[simp] theorem State.give_inBuf : (s.give v).inBuf = s.inBuf := rfl
@[simp] theorem State.give_inLen : (s.give v).inLen = s.inLen := rfl
@[simp] theorem State.give_out : (s.give v).out = s.out := rfl
@[simp] theorem State.give_cmd : (s.give v).cmd = s.cmd := rfl
@[simp] theorem State.give_status : (s.give v).status = s.status := rfl
@[simp] theorem State.give_err : (s.give v).err = s.err := rfl
@[simp] theorem State.give_res : (s.give v).res = s.res := rfl
@[simp] theorem State.give_pending : (s.give v).pending = s.pending := rfl
@[simp] theorem State.give_returned : (s.give v).returned = s.returned ++ [v] := rfl

end Give

section ResetEvent
variable (s : State)

@[simp] theorem State.resetEvent_capIn : s.resetEvent.capIn = s.capIn := rfl
@[simp] theorem State.resetEvent_inBuf : s.resetEvent.inBuf = [] := rfl
@[simp] theorem State.resetEvent_inLen : s.resetEvent.inLen = 0 := rfl
@[simp] theorem State.resetEvent_out : s.resetEvent.out = [] := rfl
@[simp] theorem State.resetEvent_cmd : s.resetEvent.cmd = 0#3 := rfl
@[simp] theorem State.resetEvent_status : s.resetEvent.status = .idle := rfl
@[simp] theorem State.resetEvent_err : s.resetEvent.err = none := rfl
@[simp] theorem State.resetEvent_res : s.resetEvent.res = false := rfl
@[simp] theorem State.resetEvent_pending : s.resetEvent.pending = s.pending := rfl
@[simp] theorem State.resetEvent_returned : s.resetEvent.returned = s.returned := rfl

end ResetEvent

section AboutToPerform
variable (s : State) (w : Nat)

@[simp] theorem State.aboutToPerform_capIn : (s.aboutToPerform w).capIn = s.capIn := rfl
@[simp] theorem State.aboutToPerform_inBuf : (s.aboutToPerform w).inBuf = s.inBuf := rfl
@[simp] theorem State.aboutToPerform_inLen : (s.aboutToPerform w).inLen = s.inLen := rfl
@[simp] theorem State.aboutToPerform_out : (s.aboutToPerform w).out = s.out := rfl
@[simp] theorem State.aboutToPerform_cmd : (s.aboutToPerform w).cmd = BitVec.ofNat 3 w := rfl
@[simp] theorem State.aboutToPerform_status : (s.aboutToPerform w).status = .busy := rfl
@[simp] theorem State.aboutToPerform_err : (s.aboutToPerform w).err = s.err := rfl
@[simp] theorem State.aboutToPerform_res : (s.aboutToPerform w).res = s.res := rfl
@[simp] theorem State.aboutToPerform_pending :
    (s.aboutToPerform w).pending = .complete :: s.pending := rfl
@[simp] theorem State.aboutToPerform_returned : (s.aboutToPerform w).returned = s.returned := rfl

end AboutToPerform

section ResetWith
variable (cap : Nat)

@[simp] theorem State.resetWith_capIn : (State.resetWith cap).capIn = cap := rfl
@[simp] theorem State.resetWith_inBuf : (State.resetWith cap).inBuf = [] := rfl
@[simp] theorem State.resetWith_inLen : (State.resetWith cap).inLen = 0 := rfl
@[simp] theorem State.resetWith_out : (State.resetWith cap).out = [] := rfl
@[simp] theorem State.resetWith_cmd : (State.resetWith cap).cmd = 0#3 := rfl
@[simp] theorem State.resetWith_status : (State.resetWith cap).status = .idle := rfl
@[simp] theorem State.resetWith_err : (State.resetWith cap).err = none := rfl
@[simp] theorem State.resetWith_res : (State.resetWith cap).res = false := rfl
@[simp] theorem State.resetWith_pending : (State.resetWith cap).pending = [] := rfl
@[simp] theorem State.resetWith_returned : (State.resetWith cap).returned = [] := rfl

end ResetWith

/-- `OUT_LEN` is the length of the sequence in `OUT` (R27). -/
theorem State.outLen_eq (s : State) : s.outLen = s.out.length := rfl

/-- Two result codes agree only for equal error values (R59). -/
theorem errCode_injective {a b : Option ErrorKind} (h : errCode a = errCode b) : a = b := by
  rcases a with _ | a <;> rcases b with _ | b
  · rfl
  · cases b <;> simp [errCode, ErrorKind.code] at h
  · cases a <;> simp [errCode, ErrorKind.code] at h
  · cases a <;> cases b <;> simp_all [errCode, ErrorKind.code]

end Sys2Proof.Machine
end

