-- ==== Sys2Proof/Laws/Ops.lean ====
section
/-! SUPPORT. What each shared operation can do, said once. -/

namespace Sys2Proof.Machine

/-- The engine's read succeeds exactly on a cell that exists and holds a byte. -/
theorem State.readIn_ok_iff (s : State) (i : Nat) (b : Byte) :
    s.readIn i = .ok b ↔ i < s.capIn ∧ Memory.read s.inBuf i = some b := by
  unfold State.readIn
  by_cases h : s.capIn ≤ i
  · simp [h, Nat.not_lt.2 h]
  · cases hr : Memory.read s.inBuf i <;> simp [h, Nat.lt_of_not_le h]

/-- Reading `n` cells from index `i` on gives `x` exactly when `x` has `n` elements and each cell read
exists and holds its element. -/
theorem State.readCells_ok_iff (s : State) (n : Nat) :
    ∀ (i : Nat) (x : List Byte), s.readCells i n = .ok x ↔
      x.length = n ∧ ∀ j (h : j < x.length), s.readIn (i + j) = .ok x[j] := by
  induction n with
  | zero =>
    intro i x
    cases x <;> simp [State.readCells]
  | succ n ih =>
    intro i x
    cases x with
    | nil =>
      cases h0 : s.readIn i with
      | error e => simp [State.readCells, h0]
      | ok b => cases h1 : s.readCells (i + 1) n <;> simp [State.readCells, h0, h1]
    | cons c x =>
      have hx := ih (i + 1) x
      constructor
      · intro h
        cases h0 : s.readIn i with
        | error e => simp [State.readCells, h0] at h
        | ok b =>
          cases h1 : s.readCells (i + 1) n with
          | error e => simp [State.readCells, h0, h1] at h
          | ok bs =>
            simp only [State.readCells, h0, h1, Except.ok.injEq, List.cons.injEq] at h
            obtain ⟨rfl, rfl⟩ := h
            obtain ⟨hl, hr⟩ := hx.1 h1
            refine ⟨by simp [hl], ?_⟩
            intro j hj
            cases j with
            | zero => simpa using h0
            | succ j =>
              have := hr j (by simpa using hj)
              simpa [Nat.add_assoc, Nat.add_comm 1 j] using this
      · rintro ⟨hl, hr⟩
        have h0 : s.readIn i = .ok c := hr 0 (by simp)
        have h1 : s.readCells (i + 1) n = .ok x := by
          refine hx.2 ⟨by simpa using hl, ?_⟩
          intro j hj
          have := hr (j + 1) (by simpa using hj)
          simpa [Nat.add_assoc, Nat.add_comm 1 j] using this
        simp [State.readCells, h0, h1]

/-- The argument is `x` exactly when `IN[0..IN_LEN)` holds `x` (R44). -/
theorem State.argument_ok_iff (s : State) (x : List Byte) : s.argument = .ok x ↔ s.Holds x := by
  unfold State.argument State.Holds
  rw [State.readCells_ok_iff]
  constructor
  · rintro ⟨hl, hr⟩
    have hr' := fun j hj => (State.readIn_ok_iff s _ _).1 (hr j hj)
    refine ⟨?_, hl, fun j hj => by simpa using (hr' j hj).2⟩
    cases hn : s.inLen with
    | zero => exact Nat.zero_le _
    | succ n =>
      have := (hr' n (by omega)).1
      omega
  · rintro ⟨hc, hl, hr⟩
    exact ⟨hl, fun j hj => (State.readIn_ok_iff s _ _).2 ⟨by omega, by simpa using hr j hj⟩⟩

/-- Every written cell of the argument makes a whole argument (R116 c, d). -/
theorem State.ArgumentWritten.holds {s : State} (h : s.ArgumentWritten) : ∃ x, s.Holds x := by
  obtain ⟨hc, hr⟩ := h
  choose f hf using hr
  refine ⟨List.ofFn (fun j : Fin s.inLen => f j j.2), hc, by simp, ?_⟩
  intro i hi
  have hi' : i < s.inLen := by simpa using hi
  simpa using hf i hi'

/-- An argument that is held is written. -/
theorem State.Holds.written {s : State} {x : List Byte} (h : s.Holds x) : s.ArgumentWritten := by
  obtain ⟨hc, hl, hr⟩ := h
  exact ⟨hc, fun i hi => ⟨_, hr i (by omega)⟩⟩

/-- The argument a buffer holds is one sequence. -/
theorem State.Holds.unique {s : State} {x y : List Byte} (hx : s.Holds x) (hy : s.Holds y) :
    x = y := by
  have h1 := (State.argument_ok_iff s x).2 hx
  rw [(State.argument_ok_iff s y).2 hy] at h1
  exact (Except.ok.inj h1).symm

/-- `COMPLETE` on a present argument (R119). -/
theorem complete_ready (f : List Byte → Result) {s : State} {x : List Byte} (h : s.Ready x) :
    complete f s = .next (s.writeBack (f x)) := by
  simp [complete, h.1, (State.argument_ok_iff s x).2 h.2]

/-- Everything `COMPLETE` can do when it gives a next state (R119). -/
theorem complete_next {f : List Byte → Result} {s t : State} (h : complete f s = .next t) :
    ∃ x, s.Ready x ∧ t = s.writeBack (f x) := by
  unfold complete at h
  cases hs : s.status with
  | busy =>
    cases ha : s.argument with
    | ok x =>
      simp only [hs, ha, Host.Outcome.next.injEq] at h
      exact ⟨x, ⟨hs, (State.argument_ok_iff s x).1 ha⟩, h.symm⟩
    | error e => simp [hs, ha] at h
  | idle => simp [hs] at h
  | done => simp [hs] at h

/-- Each command is `COMPLETE` with its row of the case table of R119. -/
theorem exec_eq_complete (i : Instr) (s : State) : exec i s = complete (commandResult i) s := by
  cases i <;> rfl

/-- The gate of R120 lets a host step through exactly while `STATUS` is not `BUSY`. -/
theorem whenNotBusy_next {s t : State} {k : Host.Outcome State Fault Refusal}
    (h : whenNotBusy s k = .next t) : s.status ≠ .busy ∧ k = .next t := by
  unfold whenNotBusy at h
  cases hs : s.status <;> simp_all

/-- The gate of R120, open. -/
theorem whenNotBusy_open {s : State} (h : s.status ≠ .busy)
    (k : Host.Outcome State Fault Refusal) : whenNotBusy s k = k := by
  unfold whenNotBusy
  cases hs : s.status <;> simp_all

/-- The gate of R120, shut. -/
theorem whenNotBusy_shut {s : State} (h : s.status = .busy)
    (k : Host.Outcome State Fault Refusal) : whenNotBusy s k = .refused .busy := by
  simp [whenNotBusy, h]

end Sys2Proof.Machine
end

