-- ==== Sys2Proof/Laws/PerInstr.lean ====
section
/-! SUPPORT. A fact about each command as syntax: it is well formed and its word is a legal one
(R56, R57). -/

namespace Sys2Proof.Laws.CommandWord

/-- The command is well formed, and its word is one of the seven legal words. -/
def Statement (i : Instr) : Prop := i.wellFormed = true ∧ (encode i).wellFormed = true

theorem enc : Statement .enc := ⟨rfl, rfl⟩
theorem encu : Statement .encu := ⟨rfl, rfl⟩
theorem dec : Statement .dec := ⟨rfl, rfl⟩
theorem decu : Statement .decu := ⟨rfl, rfl⟩
theorem decp : Statement .decp := ⟨rfl, rfl⟩
theorem valid : Statement .valid := ⟨rfl, rfl⟩
theorem isb32 : Statement .isb32 := ⟨rfl, rfl⟩

end Sys2Proof.Laws.CommandWord
end

