-- ==== Sys2Proof/Laws/Step.lean ====
section
/-! SUPPORT. What one step can do: the inversion lemmas of the host steps, of the engine and of
`step`. -/

namespace Sys2Proof.Machine

/-- Everything a host step can do when it gives a next state. -/
inductive HostEffect (s : State) : State → Prop where
  | win (i : Nat) (b : Byte) : s.status ≠ .busy → i < s.capIn →
      HostEffect s { s with inBuf := Memory.write s.inBuf i b }
  | wlen (n : Nat) : s.status ≠ .busy → n < 2 ^ lenW s.capIn → HostEffect s { s with inLen := n }
  | start (op : Opcode) (x : List Byte) : s.status ≠ .busy → op.toNat ≤ 6 → s.Holds x →
      HostEffect s { s with cmd := op, status := .busy }
  | read (v : Nat) : HostEffect s (s.give v)

theorem hostStep_next {h : HostStep} {s t : State} (e : hostStep h s = .next t) :
    HostEffect s t := by
  cases h with
  | win i b =>
    obtain ⟨hb, e⟩ := whenNotBusy_next e
    split at e
    · cases e
    · cases e; exact .win i b hb (by omega)
  | wlen n =>
    obtain ⟨hb, e⟩ := whenNotBusy_next e
    split at e
    · cases e
    · cases e; exact .wlen n hb (by omega)
  | start op =>
    obtain ⟨hb, e⟩ := whenNotBusy_next e
    split at e
    · cases e
    · split at e
      · cases e
      · split at e
        · rename_i hw _ _ x ha
          cases e
          exact .start op x hb (by simpa [Opcode.wellFormed] using hw)
            ((State.argument_ok_iff s x).1 ha)
        · cases e
  | rstat => cases e; exact .read _
  | rlen => obtain ⟨-, e⟩ := whenNotBusy_next e; cases e; exact .read _
  | rerr => obtain ⟨-, e⟩ := whenNotBusy_next e; cases e; exact .read _
  | rres => obtain ⟨-, e⟩ := whenNotBusy_next e; cases e; exact .read _
  | rolen => obtain ⟨-, e⟩ := whenNotBusy_next e; cases e; exact .read _
  | rout i =>
    obtain ⟨-, e⟩ := whenNotBusy_next e
    split at e
    · cases e
    · cases e; exact .read _

/-- An access by register index that gives a next state is the host step of its row (R35). -/
theorem busStep_next {a : Access} {s t : State} (e : busStep a s = .next t) :
    ∃ h, a.toHostStep = .ok h ∧ hostStep h s = .next t := by
  unfold busStep at e
  split at e
  · rename_i h hh; exact ⟨h, hh, e⟩
  · cases e

/-- Everything the engine's step can do when it gives a next state (R119). -/
theorem engineStep_next {s t : State} (e : engineStep s = .next t) :
    ∃ i x, decode s.cmd = .ok i ∧ s.Ready x ∧ t = s.writeBack (commandResult i x) := by
  unfold engineStep at e
  split at e
  · rename_i i hi
    rw [exec_eq_complete] at e
    obtain ⟨x, hx, ht⟩ := complete_next e
    exact ⟨i, x, hi, hx, ht⟩
  · cases e

/-- Everything one event can do to the state it takes effect on. -/
inductive Effect (s : State) : State → Prop where
  | host {t : State} : HostEffect s t → Effect s t
  | complete (i : Instr) (x : List Byte) : decode s.cmd = .ok i → s.Ready x →
      Effect s (s.writeBack (commandResult i x))
  | reset : Effect s s.resetEvent
  | wait : s.status ≠ .busy → Effect s s

theorem eventStep_next {e : Event} {s t : State} (h : eventStep e s = .next t) : Effect s t := by
  cases e with
  | host a => exact .host (hostStep_next h)
  | bus a =>
    obtain ⟨a', -, h⟩ := busStep_next h
    exact .host (hostStep_next h)
  | complete =>
    obtain ⟨i, x, hi, hx, rfl⟩ := engineStep_next h
    exact .complete i x hi hx
  | reset => cases h; exact .reset

theorem quietStep_next {s t : State} (h : quietStep s = .next t) : Effect s t := by
  unfold quietStep at h
  cases hs : s.status with
  | busy =>
    simp only [hs] at h
    obtain ⟨i, x, hi, hx, rfl⟩ := engineStep_next h
    exact .complete i x hi hx
  | idle => simp only [hs] at h; cases h; exact .wait (by simp [hs])
  | done => simp only [hs] at h; cases h; exact .wait (by simp [hs])

/-- What a step can do: the first event, if there is one, is taken off the schedule, and then one of
the effects happens. -/
theorem step_next {s t : State} (h : step s = .next t) :
    Effect { s with pending := s.pending.tail } t := by
  unfold step at h
  cases hp : s.pending with
  | nil =>
    have : { s with pending := ([] : List Event) } = s := by cases s; simp_all
    simp only [hp] at h
    rw [List.tail_nil, this]
    exact quietStep_next h
  | cons e rest =>
    simp only [hp] at h
    exact eventStep_next h

end Sys2Proof.Machine
end

