-- ==== Sys2Proof/Tests/Slice0.lean ====
section
/-! SUPPORT. Tests of the model against the vectors of 95_test_vectors.md, the smoke test of the
well-formedness checks, and for each statement with hypotheses a concrete input that meets them. -/

namespace Sys2Proof.Tests

open Sys2Proof.Machine Sys2Proof.Reference

/-! ### Builders -/

/-- The input buffer with these bytes from index 0 on. -/
def cellsOf (x : List Byte) : Memory := x.zipIdx.map fun c => (c.2, c.1)

/-- A block of capacity 16 (the vectors' parameter) with this argument loaded, in this status. -/
def loaded (status : Status) (op : Opcode) (x : List Byte) : State :=
  { State.resetWith 16 with inBuf := cellsOf x, inLen := x.length, cmd := op, status := status }

/-- `Sun` encoded: `DONE` with the text `KN2W4===` in `OUT` (H14, H15). -/
def encoded : State :=
  { loaded .done 0#3 [0x53#8, 0x75#8, 0x6E#8] with
      out := [0x4B#8, 0x4E#8, 0x32#8, 0x57#8, 0x34#8, 0x3D#8, 0x3D#8, 0x3D#8] }

/-- The result registers of a next state. -/
def resultOf : Host.Outcome State Fault Refusal → Option (List Byte × Nat × Bool × Status)
  | .next t => some (t.out, errCode t.err, t.res, t.status)
  | .fault _ => none
  | .refused _ => none

/-- The values a next state has returned to the host, and its status. -/
def seenOf : Host.Outcome State Fault Refusal → Option (List Nat × Status)
  | .next t => some (t.returned, t.status)
  | .fault _ => none
  | .refused _ => none

/-- Why an outcome is refused. -/
def refusalOf : Host.Outcome State Fault Refusal → Option Refusal
  | .next _ => none
  | .fault _ => none
  | .refused r => some r

/-- `Sun` in ASCII (vector S7). -/
def sun : List Byte := [0x53#8, 0x75#8, 0x6E#8]

/-- The text `KN2W4===` (vector S8). -/
def sunText : List Byte := [0x4B#8, 0x4E#8, 0x32#8, 0x57#8, 0x34#8, 0x3D#8, 0x3D#8, 0x3D#8]

/-- The text `KN2W4` (vector S9). -/
def sunBare : List Byte := sunText.take 5

/-- The text `KN2W===` (vector S10). -/
def badText : List Byte := [0x4B#8, 0x4E#8, 0x32#8, 0x57#8, 0x3D#8, 0x3D#8, 0x3D#8]

/-- The text `AAAAAA=` (vector V7). -/
def partText : List Byte := List.replicate 6 0x41#8 ++ [0x3D#8]

/-! ### Well-formedness -/

theorem test_opcode_seven_ill_formed : Opcode.wellFormed 0b111#3 = false := by decide

theorem test_opcode_six_well_formed : Opcode.wellFormed 0b110#3 = true := by decide

/-! ### Decoding: the words of the table of R56, bit by bit -/

theorem test_decode_enc : decodeTableWord 8 0b000 = some .enc := by decide
theorem test_decode_encu : decodeTableWord 8 0b001 = some .encu := by decide
theorem test_decode_dec : decodeTableWord 8 0b010 = some .dec := by decide
theorem test_decode_decu : decodeTableWord 8 0b011 = some .decu := by decide
theorem test_decode_decp : decodeTableWord 8 0b100 = some .decp := by decide
theorem test_decode_valid : decodeTableWord 8 0b101 = some .valid := by decide
theorem test_decode_isb32 : decodeTableWord 8 0b110 = some .isb32 := by decide
theorem test_decode_reserved : decodeTableWord 8 0b111 = none := by decide
theorem test_decode_too_wide : decodeNat 8 = .error .wordTooWide := rfl

/-! ### Commands -/

/-- S7. -/
theorem test_enc_sun :
    resultOf (exec .enc (loaded .busy 0#3 sun)) = some (sunText, 0, false, .done) := by decide

/-- E17: bits of one byte split over two symbols. -/
theorem test_enc_split : resultOf (exec .enc (loaded .busy 0#3 [0x07#8, 0xC0#8])) =
    some ([0x41#8, 0x37#8, 0x41#8, 0x41#8, 0x3D#8, 0x3D#8, 0x3D#8, 0x3D#8], 0, false, .done) := by
  decide

/-- E8. -/
theorem test_encu_sun :
    resultOf (exec .encu (loaded .busy 1#3 sun)) = some (sunBare, 0, false, .done) := by decide

/-- E22: the lowest bit of a whole group. -/
theorem test_encu_group :
    resultOf (exec .encu (loaded .busy 1#3 [0x00#8, 0x00#8, 0x00#8, 0x00#8, 0x01#8])) =
      some (List.replicate 7 0x41#8 ++ [0x42#8], 0, false, .done) := by decide

/-- S8. -/
theorem test_dec_sun :
    resultOf (exec .dec (loaded .busy 2#3 sunText)) = some (sun, 0, false, .done) := by decide

/-- S10. -/
theorem test_dec_bad_padding :
    resultOf (exec .dec (loaded .busy 2#3 badText)) = some ([], 2, false, .done) := by decide

/-- T30. -/
theorem test_decu_bare :
    resultOf (exec .decu (loaded .busy 3#3 sunBare)) = some (sun, 0, false, .done) := by decide

/-- S11. -/
theorem test_decu_padded :
    resultOf (exec .decu (loaded .busy 3#3 sunText)) = some ([], 2, false, .done) := by decide

/-- S12. -/
theorem test_decp_bare :
    resultOf (exec .decp (loaded .busy 4#3 sunBare)) = some ([], 3, false, .done) := by decide

/-- T54: an invalid character after pads. -/
theorem test_decp_invalid_character :
    resultOf (exec .decp (loaded .busy 4#3 (sunText.take 7 ++ [0x25#8]))) =
      some ([], 4, false, .done) := by decide

/-- V7. -/
theorem test_valid_part :
    resultOf (exec .valid (loaded .busy 5#3 partText)) = some ([], 0, true, .done) := by decide

/-- S14. -/
theorem test_valid_six :
    resultOf (exec .valid (loaded .busy 5#3 (sunText.take 6))) = some ([], 0, false, .done) := by
  decide

/-- V7. -/
theorem test_isb32_part :
    resultOf (exec .isb32 (loaded .busy 6#3 partText)) = some ([], 0, false, .done) := by decide

/-- S3. -/
theorem test_isb32_empty :
    resultOf (exec .isb32 (loaded .busy 6#3 [])) = some ([], 0, true, .done) := by decide

/-! ### Host steps (section 2.6) -/

/-- H1. -/
theorem test_rstat_reset :
    seenOf (hostStep .rstat (State.resetWith 16)) = some ([0], .idle) := by decide

/-- H5. -/
theorem test_win_out_of_range :
    refusalOf (hostStep (.win 16 0x41#8) (State.resetWith 16)) = some (.inIndexOutOfRange 16) := by
  decide

/-- H8: the first cell of the argument is unwritten. -/
theorem test_start_unwritten :
    refusalOf (hostStep (.start 0#3)
      { State.resetWith 16 with inBuf := [(1, 0x41#8)], inLen := 2 }) =
      some .argumentUnwritten := by decide

/-- H9. -/
theorem test_start_too_long :
    refusalOf (hostStep (.start 2#3) { State.resetWith 16 with inLen := 17 }) =
      some .argumentTooLong := by decide

/-- H10. -/
theorem test_wlen_too_wide :
    refusalOf (hostStep (.wlen 64) (State.resetWith 16)) = some (.lengthTooWide 64) := by decide

/-- H14. -/
theorem test_rout_at_outLen :
    seenOf (hostStep (.rout 8) encoded) =
      some ([0], .done) := by decide

/-- H15. -/
theorem test_rout_first :
    seenOf (hostStep (.rout 0) encoded) =
      some ([0x4B], .done) := by decide

/-- A write over a lower, an equal and a higher cell keeps the cells sorted (R113). -/
theorem test_write_sorted :
    Memory.write (Memory.write (Memory.write [(3, 1#8)] 5 2#8) 0 3#8) 3 4#8 =
      [(0, 3#8), (3, 4#8), (5, 2#8)] := by decide

/-! ### Inputs that meet the hypotheses of the statements -/

/-- The argument a loaded block holds. -/
theorem loaded_ready (op : Opcode) {x : List Byte} (hl : x.length ≤ 16)
    (h : ∀ i (hi : i < x.length), Memory.read (cellsOf x) i = some x[i]) :
    (loaded .busy op x).Ready x := ⟨rfl, hl, rfl, h⟩

theorem sun_ready (op : Opcode) : (loaded .busy op sun).Ready sun :=
  loaded_ready op (by decide) (by decide)

theorem sunText_ready (op : Opcode) : (loaded .busy op sunText).Ready sunText :=
  loaded_ready op (by decide) (by decide)

/-- The cells of the argument `Sun` are written. -/
theorem sun_written : ∀ i, i < 3 → ∃ b, Memory.read (cellsOf sun) i = some b := by
  intro i hi
  interval_cases i <;> exact ⟨_, rfl⟩

/-- The engine about to encode `Sun` meets the invariant. -/
theorem busy_inv (events : List Event) :
    ({ loaded .busy 0#3 sun with pending := events } : State).Inv where
  r26 :=
    { outFits := Nat.zero_le _
      idleClean := by intro h; cases h
      doneError := by intro h; cases h
      doneTrue := by intro h; cases h
      busyReady := fun _ => ⟨(by decide : (0#3 : Opcode).toNat ≤ 6), (by decide : 3 ≤ 16),
        sun_written⟩ }
  canonical := (by decide : Memory.wf (cellsOf sun) = true)
  cellsExist := (by decide : ∀ c ∈ cellsOf sun, c.1 < 16)
  lengthFits := (by decide : 3 < 2 ^ lenW 16)

/-- The reset state of capacity 16 meets the invariant. -/
theorem idle_inv (events : List Event) :
    ({ State.resetWith 16 with pending := events } : State).Inv where
  r26 :=
    { outFits := Nat.zero_le _
      idleClean := fun _ => ⟨rfl, rfl, rfl⟩
      doneError := by intro h; cases h
      doneTrue := by intro h; cases h
      busyReady := by intro h; cases h }
  canonical := rfl
  cellsExist := fun _ hc => nomatch hc
  lengthFits := (by decide : 0 < 2 ^ lenW 16)

theorem witness_StepPerformsDecodedCommand :
    (({ loaded .busy 6#3 sun with pending := [.complete, .reset] } : State).pending =
      .complete :: [.reset] ∧ decode 6#3 = .ok .isb32) ∧
    ((loaded .busy 0#3 sun).pending = [] ∧ (loaded .busy 0#3 sun).status = .busy ∧
      decode (loaded .busy 0#3 sun).cmd = .ok .enc) := ⟨⟨rfl, rfl⟩, rfl, rfl, rfl⟩

theorem witness_StepTakesNextEvent :
    ({ loaded .idle 0#3 sun with pending := [.host .rstat] } : State).pending =
      .host .rstat :: [] ∧
    (({ loaded .idle 0#3 sun with pending := [.bus (.read 7 3)] } : State).pending =
      .bus (.read 7 3) :: [] ∧ (Access.read 7 3).toHostStep = .ok (.rout 3)) ∧
    ({ loaded .idle 0#3 sun with pending := [.reset] } : State).pending = .reset :: [] ∧
    ((loaded .done 0#3 sun).pending = [] ∧ (loaded .done 0#3 sun).status ≠ .busy) :=
  ⟨rfl, ⟨rfl, rfl⟩, rfl, rfl, by decide⟩

theorem witness_DecodeInvertsEncode :
    Instr.wellFormed .enc = true ∧ decode 0#3 = .ok .enc ∧ decode 6#3 = .ok .isb32 :=
  ⟨rfl, rfl, rfl⟩

theorem witness_EncodeTableIsAlphabet :
    (25#5 : Sym).toNat ≤ 25 ∧ 26 ≤ (26#5 : Sym).toNat := by decide

theorem witness_EncodeTableInjective : encRom 31#5 = encRom 31#5 := rfl

theorem witness_DecodeTableClassifies :
    (0x61 ≤ (0x7A#8 : Byte).toNat ∧ (0x7A#8 : Byte).toNat ≤ 0x7A) ∧
      0x80 ≤ (0x80#8 : Byte).toNat := by decide

theorem witness_DecodeTableCounts : decRom 0x37#8 = .value 31#5 := by decide

theorem witness_TablesAgree : decRom 0x5A#8 = .value 25#5 := by decide

theorem witness_AccumulatorHoldsFields : 4 < 5 ∧ 7 < 8 := by decide

theorem witness_TailTables : 1 ≤ 1 ∧ 4 ≤ 4 := by decide

theorem witness_EncodeByGroups : (false = false) ∧ encodeText false sun = sunBare := by decide

theorem witness_InvalidSizeExactly : 0 < (sunText.take 6).length ∧
    (sunText.take 6).length % 8 = 6 := by decide

theorem witness_EmptyArgumentResults : (loaded .busy 0#3 []).Ready [] :=
  loaded_ready 0#3 (by decide) (by decide)

theorem witness_RequiresPaddingExactly : (0 < sunBare.length ∧ sunBare.length % 8 = 5) ∧
    ∃ u, exec .decp (loaded .busy 4#3 sunBare) = .next u ∧ u.err = some .requiresPadding :=
  ⟨by decide, _, rfl, rfl⟩

theorem witness_TolerantPrecheckMeaning :
    (0 < sunText.length ∧ sunText.length % 8 = 0) ∧ (sunText.take 2).length % 8 = 2 ∧
      (4, 2) ∈ [(4, 2), (5, 3), (7, 1)] ∧ (sunText.take 4).length % 8 = 4 ∧
      sunBare.length % 8 = 5 ∧ badText.length % 8 = 7 := by decide

/-- One text for each length class, with and without the pad that makes the check fail. -/
theorem witness_UnpaddedPrecheckMeaning :
    (0 < sunText.length ∧ sunText.length % 8 = 0 ∧
      precheckUnpadded sunText = some .invalidPadding) ∧
    ((sunText.take 2).length % 8 = 2 ∧ [0x4B#8, 0x3D#8].length % 8 = 2 ∧
      0x3D#8 ∈ [0x4B#8, 0x3D#8].drop 0) ∧
    (sunText.take 4).length % 8 = 4 ∧ sunBare.length % 8 = 5 ∧
    (badText.length % 8 = 7 ∧ 0x3D#8 ∈ badText.drop (badText.length - badText.length % 8)) := by
  decide

/-- A text without a fault; one with a fault of each of the four cases of R91 (T51, T38, T43, T74); and
two faults in one text, of which the one at the lower index is a pad and the other invalid. -/
theorem witness_FirstFaultDecidesUnpack :
    (0 < sunText.length ∧ sunText.length % 8 = 0 ∧
      ∀ i, i < sunText.length → faultAt sunText i = none) ∧
    faultAt (sunBare ++ [0x25#8, 0x3D#8, 0x3D#8]) 5 = some .invalidCharacter ∧
    faultAt (sunText ++ sunText) 5 = some .invalidPadding ∧
    faultAt (List.replicate 6 0x41#8 ++ [0x3D#8, 0x3D#8]) 6 = some .invalidPadding ∧
    faultAt [0x41#8, 0x41#8, 0x41#8, 0x41#8, 0x3D#8, 0x41#8, 0x41#8, 0x41#8] 5 =
      some .invalidPadding ∧
    (faultAt [0x3D#8, 0x25#8, 0x41#8, 0x41#8, 0x41#8, 0x41#8, 0x41#8, 0x41#8] 0 =
        some .invalidPadding ∧
      faultAt [0x3D#8, 0x25#8, 0x41#8, 0x41#8, 0x41#8, 0x41#8, 0x41#8, 0x41#8] 1 =
        some .invalidCharacter) := by decide

theorem witness_UnpackIsTheLoop : 0 < sunText.length ∧ sunText.length % 8 = 0 := by decide

theorem witness_ErrorKindsByCommand :
    (∃ t, exec .enc (loaded .busy 0#3 sun) = .next t) ∧
    (∃ t, exec .encu (loaded .busy 1#3 sun) = .next t) ∧
    (∃ t, exec .valid (loaded .busy 5#3 sun) = .next t) ∧
    (∃ t, exec .isb32 (loaded .busy 6#3 sun) = .next t) ∧
    (∃ t, exec .dec (loaded .busy 2#3 sun) = .next t) ∧
    (∃ t, exec .decu (loaded .busy 3#3 sun) = .next t) :=
  ⟨⟨_, rfl⟩, ⟨_, rfl⟩, ⟨_, rfl⟩, ⟨_, rfl⟩, ⟨_, rfl⟩, ⟨_, rfl⟩⟩

theorem witness_NoPartialOutput :
    ∃ t, exec .dec (loaded .busy 2#3 badText) = .next t ∧ t.err ≠ none ∧ 31 < capOut t.capIn :=
  ⟨_, rfl, by decide, by decide⟩

theorem witness_SuccessfulResultLength :
    0 < sunBare.length ∧ decodeTolerant sunBare = .ok sun ∧ decodeUnpadded sunBare = .ok sun ∧
      0 < sunText.length ∧ decodePadded sunText = .ok sun := ⟨by decide, rfl, rfl, by decide, rfl⟩

theorem witness_UnpaddedRejectsEveryPad :
    (0x3D#8 ∈ sunText.take 6 ∧ illegalSize ((sunText.take 6).length % 8) = true) ∧
    (0x3D#8 ∈ sunText.take 7 ++ [0x25#8] ∧
      illegalSize ((sunText.take 7 ++ [0x25#8]).length % 8) = false ∧
      precheckUnpadded (sunText.take 7 ++ [0x25#8]) = none ∧
      unpack (normalise (sunText.take 7 ++ [0x25#8])) = .error .invalidCharacter) ∧
    (0x3D#8 ∈ badText ∧ illegalSize (badText.length % 8) = false ∧
      precheckUnpadded badText = some .invalidPadding) :=
  ⟨by decide, ⟨by decide, by decide, by decide, rfl⟩, by decide⟩

/-- One text for each clause of the table, at the ends of its range. -/
theorem witness_CleanTextTable :
    (1 = 1 ∧ ([0#5].map encRom ++ List.replicate 0 0x3D#8).length % 8 = 1) ∧
    ((List.replicate 8 0#5).map encRom ++ List.replicate 0 0x3D#8).length % 8 = 0 ∧
    (((List.replicate 2 0#5).map encRom ++ List.replicate 6 0x3D#8).length % 8 = 0 ∧
      6 ∈ [1, 3, 4, 6]) ∧
    (((List.replicate 0 0#5).map encRom ++ List.replicate 8 0x3D#8).length % 8 = 0 ∧
      8 ∉ [0, 1, 3, 4, 6]) ∧
    ((List.replicate 7 0#5).map encRom ++ List.replicate 0 0x3D#8).length % 8 = 7 ∧
    ((List.replicate 2 0#5).map encRom ++ List.replicate 2 0x3D#8).length % 8 = 4 ∧
    ((List.replicate 2 0#5).map encRom ++ List.replicate 3 0x3D#8).length % 8 = 5 ∧
    (((List.replicate 6 0#5).map encRom ++ List.replicate 1 0x3D#8).length % 8 = 7 ∧
      ¬(7 = 4 ∧ 1 = 2 ∨ 7 = 5 ∧ 1 = 3)) := by decide

/-- `Y` and `3` after `M`: they differ only in the two unused bits (R93). -/
theorem witness_UnusedBitsIgnored :
    2 ∈ [2, 4, 5, 7] ∧ [12#5].length % 8 = 2 - 1 ∧
      (24#5 : Sym).toNat / 2 ^ (5 * 2 - 8 * blockByteCount 2) =
        (27#5 : Sym).toNat / 2 ^ (5 * 2 - 8 * blockByteCount 2) := by decide

theorem witness_EarlierCheckDecides :
    (0 < (sunText.take 6).length ∧ illegalSize ((sunText.take 6).length % 8) = true) ∧
    (illegalSize (badText.length % 8) = false ∧
      precheckTolerant badText = some .invalidPadding) ∧
    (illegalSize (sunText.length % 8) = false ∧
      precheckUnpadded sunText = some .invalidPadding) ∧
    (illegalSize (sunBare.length % 8) = false ∧ sunBare.length % 8 ≠ 0) ∧
    ((0, 0) ∈ [(0, 0), (2, 6), (4, 4), (5, 3), (7, 1)] ∧ sunText.length % 8 = 0 ∧
      precheckTolerant sunText = none ∧ precheckUnpadded (List.replicate 8 0x41#8) = none) ∧
    ((7, 1) ∈ [(0, 0), (2, 6), (4, 4), (5, 3), (7, 1)] ∧ partText.length % 8 = 7 ∧
      precheckTolerant partText = none ∧ precheckUnpadded (List.replicate 7 0x41#8) = none) := by
  decide

theorem witness_IsBase32IsDecodability :
    isBase32 sunText = true ∧ shapeValid partText = true ∧ isBase32 partText = false := by decide

theorem witness_EncCompletes : (loaded .busy 0#3 sun).Ready sun ∧ sun.length % 5 ≠ 0 ∧
    ([] : List Byte).length % 5 = 0 := ⟨sun_ready _, by decide, rfl⟩

theorem witness_EncuCompletes : (loaded .busy 1#3 sun).Ready sun ∧
    (List.replicate 5 0xFF#8).length % 5 = 0 := ⟨sun_ready _, by decide⟩

theorem witness_DecodersComplete : (loaded .busy 2#3 sunText).Ready sunText ∧
    decodeTolerant sunText = .ok sun ∧ decodeUnpadded sunText = .error .invalidPadding :=
  ⟨sunText_ready _, rfl, rfl⟩

theorem witness_ValidatorsComplete : (loaded .busy 5#3 sunText).Ready sunText := sunText_ready _

theorem witness_CompletePerformsOperation :
    ((loaded .busy 0#3 sun).Ready sun ∧ decode (loaded .busy 0#3 sun).cmd = .ok .enc) ∧
    (loaded .idle 0#3 sun).status ≠ .busy ∧ (loaded .done 0#3 sun).status ≠ .busy ∧
    (({ loaded .busy 0#3 sun with pending := [] } : State).Inv ∧
      (loaded .busy 0#3 sun).status = .busy) :=
  ⟨⟨sun_ready 0#3, rfl⟩, by decide, by decide, busy_inv [], rfl⟩

theorem witness_CommandFrame : ∃ t, exec .dec (loaded .busy 2#3 sunText) = .next t := ⟨_, rfl⟩

/-- Two states that differ in capacity, in a cell beyond the argument and in their old results. -/
theorem witness_ResultDependsOnArgumentAlone :
    let s := loaded .busy 0#3 sun
    let u := { loaded .busy 0#3 (sun ++ [0xFF#8]) with
                 capIn := 4, inLen := 3, out := sunText, res := true }
    (∃ t, engineStep s = .next t) ∧ u.status = .busy ∧ u.inLen ≤ u.capIn ∧ u.cmd = s.cmd ∧
      u.inLen = s.inLen ∧
      ∀ a, a < s.inLen → Memory.read u.inBuf a = Memory.read s.inBuf a :=
  ⟨⟨_, rfl⟩, rfl, by decide, rfl, rfl, by decide⟩

theorem witness_EveryOperationCompletes :
    ({ loaded .busy 0#3 sun with pending := [.host .rstat, .host .rstat] } : State).Inv ∧
      ({ loaded .busy 0#3 sun with pending := [.host .rstat, .host .rstat] } : State).pending =
        List.replicate 2 (.host .rstat) := ⟨busy_inv _, rfl⟩

theorem witness_WinWritesOneCell :
    ((State.resetWith 16).status ≠ .busy ∧ 15 < (State.resetWith 16).capIn) ∧
      (loaded .busy 0#3 sun).status = .busy ∧ (State.resetWith 16).capIn ≤ 16 := by decide

theorem witness_WlenWritesLength :
    ((State.resetWith 16).status ≠ .busy ∧ 63 < 2 ^ lenW (State.resetWith 16).capIn) ∧
      (loaded .busy 0#3 sun).status = .busy ∧ 2 ^ lenW (State.resetWith 16).capIn ≤ 64 := by decide

theorem witness_StartEnabledExactly :
    ((loaded .done 0#3 sun).status = .done ∧ (6#3 : Opcode).toNat ≤ 6 ∧
      (loaded .done 0#3 sun).inLen ≤ (loaded .done 0#3 sun).capIn ∧
      ∀ i, i < (loaded .done 0#3 sun).inLen →
        ∃ b, Memory.read (loaded .done 0#3 sun).inBuf i = some b) ∧
    ¬((loaded .busy 0#3 sun).status = .idle ∨ (loaded .busy 0#3 sun).status = .done) ∧
    ¬(7#3 : Opcode).toNat ≤ 6 ∧
    ¬({ State.resetWith 16 with inLen := 17 } : State).inLen ≤ (State.resetWith 16).capIn ∧
    ¬(∀ i, i < 1 → ∃ b, Memory.read (State.resetWith 16).inBuf i = some b) := by
  refine ⟨⟨rfl, by decide, by decide, sun_written⟩, by decide, by decide, by decide, ?_⟩
  intro h
  obtain ⟨b, hb⟩ := h 0 (by decide)
  cases hb

theorem witness_OnlyStatusReadWhileBusy :
    (loaded .busy 0#3 sun).status = .busy ∧ HostStep.rerr ≠ .rstat := by decide

theorem witness_ResultReads :
    (encoded.status ≠ .busy ∧ 7 < encoded.out.length ∧ encoded.out.length ≤ 8 ∧
      31 < capOut encoded.capIn) ∧
      (State.resetWith 16).R26 ∧ (State.resetWith 16).status = .idle ∧
      (loaded .busy 0#3 sun).status = .busy :=
  ⟨by decide, (idle_inv []).r26, rfl, rfl⟩

theorem witness_IndexOutOfRangeRefused :
    (State.resetWith 16).capIn ≤ 16 ∧ capOut (State.resetWith 16).capIn ≤ 32 ∧ 8 ≤ 8 := by decide

theorem witness_RegisterIndexMap : 7 < 8 ∧ 255 < 256 ∧ 8 ≤ 8 ∧ 256 ≤ 256 := by decide

theorem witness_HostFrame :
    (∃ t, hostStep (.win 15 0x41#8) (State.resetWith 16) = .next t) ∧
    (∃ t, hostStep (.wlen 63) (State.resetWith 16) = .next t) ∧
    (∃ t, hostStep (.start 6#3) (loaded .idle 0#3 sun) = .next t) ∧
    (∃ t, hostStep .rstat (State.resetWith 16) = .next t) :=
  ⟨⟨_, rfl⟩, ⟨_, rfl⟩, ⟨_, rfl⟩, ⟨_, rfl⟩⟩

theorem witness_StatusTransitions :
    (∃ t, step { loaded .idle 0#3 sun with pending := [.host (.start 6#3)] } = .next t ∧
      t.status ≠ .idle) ∧
    (∃ t, step { loaded .done 0#3 sun with pending := [.bus (.write 0 0 6)] } = .next t ∧
      t.status ≠ .done) ∧
    (∃ t, step (loaded .busy 0#3 sun) = .next t ∧ t.status ≠ .busy) ∧
    (∃ t, step { loaded .busy 0#3 sun with pending := [.reset] } = .next t ∧
      t.status ≠ .busy) :=
  ⟨⟨_, rfl, by decide⟩, ⟨_, rfl, by decide⟩, ⟨_, rfl, by decide⟩, ⟨_, rfl, by decide⟩⟩

theorem witness_NoOverflow : sun.length ≤ 3 ∧ decodeTolerant sunText = .ok sun :=
  ⟨by decide, rfl⟩

theorem witness_LengthWidthIsLeast : capOut 16 < 2 ^ 6 := by decide

theorem witness_StepKeepsInvariant :
    ({ loaded .busy 0#3 sun with pending := [] } : State).Inv ∧
      ∃ t, step ({ loaded .busy 0#3 sun with pending := [] } : State) = .next t :=
  ⟨busy_inv [], _, rfl⟩

theorem witness_ReachableStatesMeetR26 :
    ∃ t, Reachable 16 t ∧ t.status = .done ∧ t.out = [] := by
  refine ⟨_, .step (.step (.reset [.host (.start 0#3), .complete]) rfl) rfl, rfl, rfl⟩

theorem witness_InvariantExcludesFaults :
    ({ loaded .busy 0#3 sun with pending := [.complete] } : State).Inv := busy_inv _

theorem witness_CapacityNeverChanges :
    ∃ t, step ({ loaded .busy 0#3 sun with pending := [.reset] } : State) = .next t := ⟨_, rfl⟩

theorem witness_CallReturnsResult :
    let events := callEvents .enc sun 1 8
    ({ State.resetWith 16 with pending := events } : State).Inv ∧
      (State.resetWith 16).status ≠ .busy ∧ sun.length ≤ (State.resetWith 16).capIn ∧
      events = callEvents .enc sun 1 (commandResult .enc sun).out.length ++ [] :=
  ⟨idle_inv _, by decide, by decide, rfl⟩

/-- The first step after reset runs the command placed by `withFetchWord`, whatever the capacity. -/
theorem test_first_step_valid :
    resultOf (step (State.reset.withFetchWord 8 0b101)) = some ([], 0, true, .done) := by rfl

end Sys2Proof.Tests
end

section
/-! PROOFS. The capacity along a run (O57), and the lengths of the results of all commands (O51). -/

namespace Sys2Proof.Machine

/-! ### The capacity -/

/-- No host step changes the capacity (R3, R24). -/
theorem HostEffect.capIn_eq {s t : State} (h : HostEffect s t) : t.capIn = s.capIn := by
  cases h with
  | win => rfl
  | wlen => rfl
  | start => rfl
  | read => rfl

/-- No event changes the capacity: not the write-back of R119, and not even reset (R150). -/
theorem Effect.capIn_eq {s t : State} (h : Effect s t) : t.capIn = s.capIn := by
  cases h with
  | host h => exact h.capIn_eq
  | complete => rfl
  | reset => rfl
  | wait => rfl

/-- Settles O57: taking an event off the schedule keeps the capacity, and so does every effect. -/
theorem capacityNeverChanges : Obligations.CapacityNeverChanges :=
  fun _ _ h => (step_next h).capIn_eq

/-! ### The length of an encoding -/

/-- The length of both encodings (R81): eight characters a group, then the tail's. -/
theorem encodeText_length (padded : Bool) (x : List Byte) :
    (encodeText padded x).length =
      8 * (x.length / 5) + dataSymbols (x.length % 5) +
        if padded then padSymbols (x.length % 5) else 0 := by
  induction x using encodeText.induct with
  | case1 => cases padded <;> rfl
  | case2 b0 => exact (tailText_length padded (by simp)).trans (by simp)
  | case3 b0 b1 => exact (tailText_length padded (by simp)).trans (by simp)
  | case4 b0 b1 b2 => exact (tailText_length padded (by simp)).trans (by simp)
  | case5 b0 b1 b2 b3 => exact (tailText_length padded (by simp)).trans (by simp)
  | case6 b0 b1 b2 b3 b4 rest ih =>
    have hlen : (b0 :: b1 :: b2 :: b3 :: b4 :: rest).length = rest.length + 5 := rfl
    rw [encodeText, List.length_append, pack5_length, ih, hlen, Nat.add_mod_right,
      Nat.add_div_right _ (by decide)]
    omega

/-- A tail of `r` bytes makes at most one block of text, and none when it is empty (R52). -/
theorem dataSymbols_add_padSymbols_le {r : Nat} (h : r < 5) :
    dataSymbols r + padSymbols r ≤ 8 * ((r + 4) / 5) := by
  interval_cases r <;> decide

/-- Neither encoding is longer than `8 * ceil(L / 5)` characters (R81). -/
theorem encodeText_length_le (padded : Bool) (x : List Byte) :
    (encodeText padded x).length ≤ 8 * ((x.length + 4) / 5) := by
  have hlen := encodeText_length padded x
  have htail := dataSymbols_add_padSymbols_le (Nat.mod_lt x.length (by decide : 5 > 0))
  have hpad : (if padded then padSymbols (x.length % 5) else 0) ≤ padSymbols (x.length % 5) := by
    cases padded <;> simp
  omega

/-! ### The length of a decoding -/

/-- The one padding entry of `DEC_ROM` is that of the pad character (R67). -/
theorem decRom_eq_padding_iff (b : Byte) : decRom b = .padding ↔ b = pad := by
  constructor
  · intro h
    unfold decRom at h
    split at h
    · cases h
    · split at h
      · cases h
      · split at h
        · assumption
        · cases h
  · rintro rfl
    decide

/-- A walk that succeeds accepts one value for each character that is no pad (R91, R94). -/
theorem walkBlock_ok_length {final : Bool} {cs : List Byte} {vals v : List Sym} {seen : Bool}
    (h : walkBlock final vals seen cs = .ok v) :
    v.length = vals.length + cs.countP (· != pad) := by
  induction cs generalizing vals seen with
  | nil => cases h; rfl
  | cons c cs ih =>
    have hpad := decRom_eq_padding_iff c
    unfold walkBlock at h
    split at h
    · cases h
    · rename_i hc
      have hcount : (c :: cs).countP (· != pad) = cs.countP (· != pad) := by
        simp [hpad.1 hc]
      rw [hcount]
      split at h
      · cases h
      · split at h
        · exact ih h
        · split at h
          · exact ih h
          · cases h
    · rename_i w hc
      have hcount : (c :: cs).countP (· != pad) = cs.countP (· != pad) + 1 := by
        have : c ≠ pad := fun e => by simp [hpad.2 e] at hc
        simp [this]
      split at h
      · cases h
      · have := ih h
        rw [List.length_append, List.length_singleton] at this
        omega

/-- A block with `d` data symbols emits at most `floor(5d / 8)` bytes (R92). -/
theorem blockBytes_length_le (v : List Sym) : 8 * (blockBytes v).length ≤ 5 * v.length := by
  have : (blockBytes v).length ≤ blockByteCount v.length := List.length_take_le _ _
  unfold blockByteCount at this
  omega

/-- Unpacking emits at most five bits for each character that is no pad: every block rounds down
(R92, R94). -/
theorem unpackBlocks_ok_length_le {nb : Nat} {t r : List Byte} (h : unpackBlocks nb t = .ok r) :
    8 * r.length ≤ 5 * t.countP (· != pad) := by
  induction nb generalizing t r with
  | zero => cases h; exact Nat.zero_le _
  | succ nb ih =>
    obtain ⟨v, u, hv, hu, rfl⟩ := unpackBlocks_succ_ok h
    have hblock := blockBytes_length_le v
    have hvlen : v.length = (t.take 8).countP (· != pad) := by
      simpa using walkBlock_ok_length hv
    have hrest := ih hu
    have hsplit : t.countP (· != pad) =
        (t.take 8).countP (· != pad) + (t.drop 8).countP (· != pad) := by
      rw [← List.countP_append, List.take_append_drop]
    rw [List.length_append]
    omega

/-- `NORMALISE` appends nothing but pads (R90). -/
theorem countP_ne_pad_normalise (t : List Byte) :
    (normalise t).countP (· != pad) = t.countP (· != pad) := by
  simp [normalise, List.countP_replicate]

/-- A text of whole blocks is its own normalised text (R90). -/
theorem normalise_of_whole {t : List Byte} (h : t.length % 8 = 0) : normalise t = t := by
  simp [normalise, h, appendCount]

/-- What the three decoder routines have in common: the empty text, the size check, the routine's own
check with verdict `check`, and then `UNPACK` of the normalised text (R95, R97, R98). -/
def decodeAfter (check : Option ErrorKind) (t : List Byte) : Except ErrorKind (List Byte) :=
  if t.length = 0 then .ok []
  else if illegalSize (t.length % 8) then .error .invalidSize
  else
    match check with
    | some k => .error k
    | none => unpack (normalise t)

theorem decodeTolerant_eq (t : List Byte) :
    decodeTolerant t = decodeAfter (precheckTolerant t) t := rfl

theorem decodeUnpadded_eq (t : List Byte) :
    decodeUnpadded t = decodeAfter (precheckUnpadded t) t := rfl

/-- The padded-only decoder's own check is that the text is whole blocks (R98). -/
theorem decodePadded_eq (t : List Byte) :
    decodePadded t = decodeAfter (if t.length % 8 ≠ 0 then some .requiresPadding else none) t := by
  by_cases hwhole : t.length % 8 = 0
  · simp [decodePadded, decodeAfter, hwhole, normalise_of_whole]
  · simp [decodePadded, decodeAfter, hwhole]

/-- The bytes of a successful decode are those of `UNPACK` on the normalised text. -/
theorem unpack_of_decodeAfter {check : Option ErrorKind} {t r : List Byte}
    (h : decodeAfter check t = .ok r) : unpack (normalise t) = .ok r := by
  unfold decodeAfter at h
  split at h
  · rename_i h0
    rw [List.eq_nil_of_length_eq_zero h0]
    exact h
  · split at h
    · cases h
    · split at h
      · cases h
      · exact h

/-- A successful decode of `L` characters gives at most `floor(5L / 8)` bytes (R101). -/
theorem decodeAfter_ok_length_le {check : Option ErrorKind} {t r : List Byte}
    (h : decodeAfter check t = .ok r) : r.length ≤ 5 * t.length / 8 := by
  have hbits : 8 * r.length ≤ 5 * (normalise t).countP (· != pad) :=
    unpackBlocks_ok_length_le (unpack_of_decodeAfter h)
  have hcount : t.countP (· != pad) ≤ t.length := List.countP_le_length
  rw [countP_ne_pad_normalise] at hbits
  omega

/-! ### The output buffer -/

/-- A decoder on an argument of `L` bytes writes back at most `floor(5L / 8)` of them, and none when it
ends in an error (R101, R119). -/
theorem ofDecode_decodeAfter_out_length_le (check : Option ErrorKind) (t : List Byte) :
    (Result.ofDecode (decodeAfter check t)).out.length ≤ 5 * t.length / 8 := by
  cases h : decodeAfter check t with
  | ok r => exact decodeAfter_ok_length_le h
  | error k => exact Nat.zero_le _

/-- No command on an argument of `L` bytes writes back more than `8 * ceil(L / 5)` of them (R4). -/
theorem commandResult_out_length_le (i : Instr) (x : List Byte) :
    (commandResult i x).out.length ≤ capOut x.length := by
  have hcap : 5 * x.length / 8 ≤ capOut x.length := by
    unfold capOut
    omega
  cases i with
  | enc => exact encodeText_length_le true x
  | encu => exact encodeText_length_le false x
  | dec =>
    rw [commandResult, decodeTolerant_eq]
    exact (ofDecode_decodeAfter_out_length_le _ x).trans hcap
  | decu =>
    rw [commandResult, decodeUnpadded_eq]
    exact (ofDecode_decodeAfter_out_length_le _ x).trans hcap
  | decp =>
    rw [commandResult, decodePadded_eq]
    exact (ofDecode_decodeAfter_out_length_le _ x).trans hcap
  | valid => exact Nat.zero_le _
  | isb32 => exact Nat.zero_le _

/-- A larger input buffer has no smaller output buffer (R4). -/
theorem capOut_mono {m n : Nat} (h : m ≤ n) : capOut m ≤ capOut n := by
  unfold capOut
  omega

/-- Settles O51: an encoding is at most `8 * ceil(L / 5)` long, a decoding at most `floor(5L / 8)`,
and a validator writes no byte. -/
theorem noOverflow : Obligations.NoOverflow := by
  intro cap i x hx
  refine ⟨rfl, ?_, ?_, ?_⟩
  · exact (commandResult_out_length_le i x).trans (capOut_mono hx)
  · intro r h
    rw [decodeTolerant_eq] at h
    exact decodeAfter_ok_length_le h
  · omega

end Sys2Proof.Machine
end

section
/-! PROOFS. What a command, a host step and a reset leave unchanged (O38, O48, O49), and what
changes `STATUS` (O50). -/

namespace Sys2Proof.Machine

/-! ### Commands and reset -/

/-- Settles O38: a command that completes is one write-back to a busy state. -/
theorem commandFrame : Obligations.CommandFrame := by
  intro i s t h
  rw [exec_eq_complete] at h
  obtain ⟨x, ⟨hbusy, -⟩, rfl⟩ := complete_next h
  exact ⟨rfl, fun _ => rfl, rfl, rfl, rfl, rfl, rfl, hbusy, rfl⟩

/-- Settles O49: both states of reset are written out in the model with the values of R25. -/
theorem resetTakesEveryRegister : Obligations.ResetTakesEveryRegister :=
  ⟨fun _ => rfl, rfl, fun _ => rfl, rfl, rfl, rfl, rfl, rfl, rfl, rfl⟩

/-! ### Host steps -/

/-- The host steps that return a value (R117, R118). -/
def HostStep.isRead : HostStep → Bool
  | .win _ _ => false
  | .wlen _ => false
  | .start _ => false
  | .rstat => true
  | .rlen => true
  | .rerr => true
  | .rres => true
  | .rolen => true
  | .rout _ => true

/-- What each host step makes of a state it gives a next state in. `HostEffect` says when, and
leaves the host step open. -/
inductive HostUpdate (s : State) : HostStep → State → Prop where
  | win (i : Nat) (b : Byte) :
      HostUpdate s (.win i b) { s with inBuf := Memory.write s.inBuf i b }
  | wlen (n : Nat) : HostUpdate s (.wlen n) { s with inLen := n }
  | start (op : Opcode) : s.status ≠ .busy →
      HostUpdate s (.start op) { s with cmd := op, status := .busy }
  | read {h : HostStep} (v : Nat) : h.isRead = true → HostUpdate s h (s.give v)

/-- Everything a named host step can do when it gives a next state (R113 to R118). -/
theorem hostStep_update {h : HostStep} {s t : State} (e : hostStep h s = .next t) :
    HostUpdate s h t := by
  cases h with
  | win i b =>
    obtain ⟨-, e⟩ := whenNotBusy_next e
    split at e
    · cases e
    · cases e; exact .win i b
  | wlen n =>
    obtain ⟨-, e⟩ := whenNotBusy_next e
    split at e
    · cases e
    · cases e; exact .wlen n
  | start op =>
    obtain ⟨hidle, e⟩ := whenNotBusy_next e
    split at e
    · cases e
    · split at e
      · cases e
      · split at e
        · cases e; exact .start op hidle
        · cases e
  | rstat => cases e; exact .read _ rfl
  | rlen => obtain ⟨-, e⟩ := whenNotBusy_next e; cases e; exact .read _ rfl
  | rerr => obtain ⟨-, e⟩ := whenNotBusy_next e; cases e; exact .read _ rfl
  | rres => obtain ⟨-, e⟩ := whenNotBusy_next e; cases e; exact .read _ rfl
  | rolen => obtain ⟨-, e⟩ := whenNotBusy_next e; cases e; exact .read _ rfl
  | rout i =>
    obtain ⟨-, e⟩ := whenNotBusy_next e
    split at e
    · cases e
    · cases e; exact .read _ rfl

/-- Settles O48: each clause is read off the update that the host step makes. -/
theorem hostFrame : Obligations.HostFrame := by
  intro h s t e
  cases hostStep_update e with
  | win i b =>
    refine ⟨rfl, rfl, rfl, rfl, rfl, fun hne => absurd rfl (hne i b), ?_, fun _ => rfl,
      fun _ => ⟨rfl, rfl⟩, fun _ => rfl⟩
    intro i' b' heq j hj
    cases heq
    exact Memory.read_write_other s.inBuf b hj
  | wlen n =>
    exact ⟨rfl, rfl, rfl, rfl, rfl, fun _ => rfl, fun _ _ heq => (nomatch heq),
      fun hne => absurd rfl (hne n), fun _ => ⟨rfl, rfl⟩, fun _ => rfl⟩
  | start op _ =>
    exact ⟨rfl, rfl, rfl, rfl, rfl, fun _ => rfl, fun _ _ heq => (nomatch heq), fun _ => rfl,
      fun hne => absurd rfl (hne op), fun _ => rfl⟩
  | read v hread =>
    refine ⟨rfl, rfl, rfl, rfl, rfl, fun _ => rfl, fun _ _ _ _ _ => rfl, fun _ => rfl,
      fun _ => ⟨rfl, rfl⟩, ?_⟩
    rintro (⟨_, _, rfl⟩ | ⟨_, rfl⟩ | ⟨_, rfl⟩) <;> cases hread

/-! ### The transitions of `STATUS` -/

/-- With no event to come, the step is the quiet one. -/
theorem step_of_pending_nil {s : State} (h : s.pending = []) : step s = quietStep s := by
  simp [step, h]

/-- With an event to come, the step is that event's (R112). -/
theorem step_of_pending_cons {s : State} {e : Event} {rest : List Event}
    (h : s.pending = e :: rest) : step s = eventStep e { s with pending := rest } := by
  simp [step, h]

/-- An operation in progress completes when no event is left to come (R123). -/
theorem quietStep_of_busy {s : State} (h : s.status = .busy) : quietStep s = engineStep s := by
  simp [quietStep, h]

/-- A block that is not busy waits when no event is left to come. -/
theorem quietStep_of_not_busy {s : State} (h : s.status ≠ .busy) : quietStep s = .next s := by
  unfold quietStep
  cases hs : s.status with
  | busy => exact absurd hs h
  | idle => rfl
  | done => rfl

/-- The engine takes `STATUS` from `BUSY` to `DONE` (R119). -/
theorem engineStep_status {s t : State} (h : engineStep s = .next t) :
    s.status = .busy ∧ t.status = .done := by
  obtain ⟨i, x, -, ⟨hbusy, -⟩, rfl⟩ := engineStep_next h
  exact ⟨hbusy, rfl⟩

/-- The one host step that changes `STATUS` is `START`, which takes it to `BUSY` (R115). -/
theorem hostStep_status_ne {h : HostStep} {s t : State} (e : hostStep h s = .next t)
    (hne : t.status ≠ s.status) :
    (∃ op, h = .start op) ∧ s.status ≠ .busy ∧ t.status = .busy := by
  cases hostStep_update e with
  | win => exact absurd rfl hne
  | wlen => exact absurd rfl hne
  | start op hidle => exact ⟨⟨op, rfl⟩, hidle, rfl⟩
  | read => exact absurd rfl hne

/-- The one access by register index that is a `START` is a write of index 0 (R35). -/
theorem Access.write_zero_of_toHostStep_eq_start {a : Access} {op : Opcode}
    (h : a.toHostStep = .ok (.start op)) : ∃ arg v, a = .write 0 arg v := by
  unfold Access.toHostStep at h
  split at h
  case h_10 arg v => exact ⟨arg, v, rfl⟩
  case h_12 | h_13 => split at h <;> cases h
  all_goals cases h

/-- Settles O50: by the event that the step takes off the schedule. -/
theorem statusTransitions : Obligations.StatusTransitions := by
  intro s t h hne
  cases hp : s.pending with
  | nil =>
    rw [step_of_pending_nil hp] at h
    by_cases hbusy : s.status = .busy
    · rw [quietStep_of_busy hbusy] at h
      exact .inr (.inl ⟨hbusy, (engineStep_status h).2, .inr rfl⟩)
    · rw [quietStep_of_not_busy hbusy] at h
      cases h
      exact absurd rfl hne
  | cons e rest =>
    rw [step_of_pending_cons hp] at h
    cases e with
    | host a =>
      obtain ⟨⟨op, rfl⟩, hs, ht⟩ := hostStep_status_ne h hne
      exact .inl ⟨hs, ht, .inl ⟨op, rfl⟩⟩
    | bus a =>
      obtain ⟨a', ha, h⟩ := busStep_next h
      obtain ⟨⟨op, rfl⟩, hs, ht⟩ := hostStep_status_ne h hne
      obtain ⟨arg, v, rfl⟩ := Access.write_zero_of_toHostStep_eq_start ha
      exact .inl ⟨hs, ht, .inr ⟨arg, v, rfl⟩⟩
    | complete =>
      obtain ⟨hs, ht⟩ := engineStep_status h
      exact .inr (.inl ⟨hs, ht, .inl rfl⟩)
    | reset =>
      cases h
      exact .inr (.inr ⟨rfl, rfl⟩)

end Sys2Proof.Machine
end

section
/-! PROOFS. The invariant: at reset (O53), along every step (O54) and so in every reachable state
(O55), and that it excludes every fault (O56). -/

namespace Sys2Proof.Machine

/-! ### What the results of a command can be -/

/-- The word that decodes to a command is that command's (R56). -/
theorem eq_encode_of_decode {w : Opcode} {i : Instr} (h : decode w = .ok i) : w = encode i := by
  unfold decode at h
  split at h <;> cases h <;> exact BitVec.eq_of_toNat_eq ‹_›

/-- A decode that ends in an error writes back no byte (R139). -/
theorem Result.ofDecode_out_of_err {e : Except ErrorKind (List Byte)}
    (h : (Result.ofDecode e).err ≠ none) : (Result.ofDecode e).out = [] := by
  cases e with
  | ok r => exact absurd rfl h
  | error k => rfl

/-- A decode writes back the boolean 0 (R85). -/
@[simp] theorem Result.ofDecode_res (e : Except ErrorKind (List Byte)) :
    (Result.ofDecode e).res = false := by
  cases e <;> rfl

/-- A command that ends in an error is a decoder, and writes back no byte and the boolean 0
(R139). -/
theorem commandResult_of_err {i : Instr} {x : List Byte} (h : (commandResult i x).err ≠ none) :
    (commandResult i x).out = [] ∧ (commandResult i x).res = false ∧
      (encode i = 2#3 ∨ encode i = 3#3 ∨ encode i = 4#3) := by
  cases i with
  | enc => exact absurd rfl h
  | encu => exact absurd rfl h
  | dec => exact ⟨Result.ofDecode_out_of_err h, Result.ofDecode_res _, .inl rfl⟩
  | decu => exact ⟨Result.ofDecode_out_of_err h, Result.ofDecode_res _, .inr (.inl rfl)⟩
  | decp => exact ⟨Result.ofDecode_out_of_err h, Result.ofDecode_res _, .inr (.inr rfl)⟩
  | valid => exact absurd rfl h
  | isb32 => exact absurd rfl h

/-- A command that answers with the boolean 1 is a validator, and writes back no error and no byte
(R105). -/
theorem commandResult_of_res {i : Instr} {x : List Byte} (h : (commandResult i x).res = true) :
    (encode i = 5#3 ∨ encode i = 6#3) ∧ (commandResult i x).err = none ∧
      (commandResult i x).out = [] := by
  cases i with
  | enc => cases h
  | encu => cases h
  | dec => simp [commandResult] at h
  | decu => simp [commandResult] at h
  | decp => simp [commandResult] at h
  | valid => exact ⟨.inl rfl, rfl, rfl⟩
  | isb32 => exact ⟨.inr rfl, rfl, rfl⟩

/-! ### Each update of the state keeps what R26 says -/

/-- R26 does not speak of the schedule and of what the host has read. -/
theorem State.R26.withHistory {s : State} (h : s.R26) (events : List Event) (seen : List Nat) :
    ({ s with pending := events, returned := seen } : State).R26 :=
  ⟨h.outFits, h.idleClean, h.doneError, h.doneTrue, h.busyReady⟩

/-- While the block is not busy, R26 does not speak of the input registers. -/
theorem State.R26.withInput {s : State} (h : s.R26) (hs : s.status ≠ .busy) (m : Memory)
    (n : Nat) : ({ s with inBuf := m, inLen := n } : State).R26 :=
  ⟨h.outFits, h.idleClean, h.doneError, h.doneTrue, fun hbusy => absurd hbusy hs⟩

/-- `START` under its conditions R116 keeps R26. -/
theorem State.R26.start {s : State} (h : s.R26) {op : Opcode} (hop : op.toNat ≤ 6)
    (harg : s.ArgumentWritten) : ({ s with cmd := op, status := .busy } : State).R26 where
  outFits := h.outFits
  idleClean := nofun
  doneError := nofun
  doneTrue := nofun
  busyReady _ := ⟨hop, harg⟩

/-- The state after `COMPLETE` meets R26, by what the result of a command can be (R119). -/
theorem State.Holds.writeBack_r26 {s : State} {x : List Byte} {i : Instr} (hx : s.Holds x)
    (hi : decode s.cmd = .ok i) : (s.writeBack (commandResult i x)).R26 where
  outFits := by
    obtain ⟨hfits, hlen, -⟩ := hx
    exact (commandResult_out_length_le i x).trans (capOut_mono (hlen.trans_le hfits))
  idleClean := nofun
  doneError _ herr := by
    obtain ⟨hout, hres, hcmd⟩ := commandResult_of_err herr
    rw [← eq_encode_of_decode hi] at hcmd
    exact ⟨congrArg List.length hout, hres, hcmd⟩
  doneTrue _ hres := by
    obtain ⟨hcmd, herr, hout⟩ := commandResult_of_res hres
    rw [← eq_encode_of_decode hi] at hcmd
    exact ⟨hcmd, herr, congrArg List.length hout⟩
  busyReady := nofun

/-! ### The invariant -/

/-- The invariant does not speak of the schedule and of what the host has read. -/
theorem State.Inv.withHistory {s : State} (h : s.Inv) (events : List Event) (seen : List Nat) :
    ({ s with pending := events, returned := seen } : State).Inv :=
  ⟨h.r26.withHistory events seen, h.canonical, h.cellsExist, h.lengthFits⟩

/-- The invariant holds after reset in any state (R150). -/
theorem State.resetEvent_inv (s : State) : s.resetEvent.Inv where
  r26 :=
    { outFits := Nat.zero_le _
      idleClean := fun _ => ⟨rfl, rfl, rfl⟩
      doneError := nofun
      doneTrue := nofun
      busyReady := nofun }
  canonical := rfl
  cellsExist := nofun
  lengthFits := Nat.two_pow_pos _

/-- Settles O53: the state after reset is its own reset, whatever the schedule. -/
theorem resetMeetsInvariant : Obligations.ResetMeetsInvariant :=
  ⟨State.reset.resetEvent_inv,
    fun cap events => ({ State.resetWith cap with pending := events } : State).resetEvent_inv⟩

/-- Every host step keeps the invariant. -/
theorem HostEffect.inv {s t : State} (h : HostEffect s t) (hs : s.Inv) : t.Inv := by
  cases h with
  | win i b hidle hi =>
    refine ⟨hs.r26.withInput hidle _ _, Memory.write_wf hs.canonical i b, ?_, hs.lengthFits⟩
    intro c hc
    rcases Memory.mem_write hc with rfl | hc
    · exact hi
    · exact hs.cellsExist c hc
  | wlen n hidle hn => exact ⟨hs.r26.withInput hidle _ _, hs.canonical, hs.cellsExist, hn⟩
  | start op x _ hop hx =>
    exact ⟨hs.r26.start hop hx.written, hs.canonical, hs.cellsExist, hs.lengthFits⟩
  | read v => exact hs.withHistory s.pending (s.returned ++ [v])

/-- Every effect of an event keeps the invariant. -/
theorem Effect.inv {s t : State} (h : Effect s t) (hs : s.Inv) : t.Inv := by
  cases h with
  | host h => exact h.inv hs
  | complete i x hi hx =>
    exact ⟨hx.2.writeBack_r26 hi, hs.canonical, hs.cellsExist, hs.lengthFits⟩
  | reset => exact s.resetEvent_inv
  | wait => exact hs

/-- Settles O54: taking an event off the schedule keeps the invariant, and so does every effect. -/
theorem stepKeepsInvariant : Obligations.StepKeepsInvariant :=
  fun s _ hs h => (step_next h).inv (hs.withHistory s.pending.tail s.returned)

/-! ### Reachable states -/

/-- The invariant holds in every reachable state. -/
theorem Reachable.inv {cap : Nat} {s : State} (h : Reachable cap s) : s.Inv := by
  induction h with
  | reset events => exact resetMeetsInvariant.2 cap events
  | step _ hstep ih => exact stepKeepsInvariant _ _ ih hstep

/-- The capacity of a reachable state is the one the block was made with (R3). -/
theorem Reachable.capIn_eq {cap : Nat} {s : State} (h : Reachable cap s) : s.capIn = cap := by
  induction h with
  | reset events => rfl
  | step _ hstep ih => exact (capacityNeverChanges _ _ hstep).trans ih

/-- The codes of `STATUS` are 0 to 2 (R58). -/
theorem Status.code_le (v : Status) : v.code ≤ 2 := by
  cases v <;> decide

/-- The codes of `ERR` are 0 to 4 (R59). -/
theorem errCode_le (e : Option ErrorKind) : errCode e ≤ 4 := by
  rcases e with _ | k
  · decide
  · cases k <;> decide

/-- Settles O55: R26 is part of the invariant, which holds in every reachable state. -/
theorem reachableStatesMeetR26 : Obligations.ReachableStatesMeetR26 :=
  fun _ s h => ⟨h.inv.r26, s.status.code_le, errCode_le s.err, h.capIn_eq⟩

/-! ### Faults -/

/-- `COMPLETE` faults only when an operation is in progress without a whole argument. -/
theorem complete_fault {f : List Byte → Result} {s : State} {e : Fault}
    (h : complete f s = .fault e) : s.status = .busy ∧ ¬ s.ArgumentWritten := by
  have hbusy : s.status = .busy := by
    unfold complete at h
    cases hs : s.status with
    | busy => rfl
    | idle => simp [hs] at h
    | done => simp [hs] at h
  refine ⟨hbusy, fun hw => ?_⟩
  obtain ⟨x, hx⟩ := hw.holds
  rw [complete_ready f ⟨hbusy, hx⟩] at h
  cases h

/-- The engine's step faults only when `COMPLETE` does. -/
theorem engineStep_fault {s : State} {e : Fault} (h : engineStep s = .fault e) :
    s.status = .busy ∧ ¬ s.ArgumentWritten := by
  unfold engineStep at h
  split at h
  · rw [exec_eq_complete] at h
    exact complete_fault h
  · cases h

/-- The gate of R120 raises no fault. -/
theorem whenNotBusy_fault {s : State} {k : Host.Outcome State Fault Refusal} {f : Fault}
    (h : whenNotBusy s k = .fault f) : k = .fault f := by
  by_cases hs : s.status = .busy
  · rw [whenNotBusy_shut hs] at h
    cases h
  · rwa [whenNotBusy_open hs] at h

/-- No host step faults: what it cannot do is refused. -/
theorem hostStep_ne_fault (h : HostStep) (s : State) (f : Fault) : hostStep h s ≠ .fault f := by
  intro e
  cases h with
  | win i b =>
    have e := whenNotBusy_fault e
    split at e <;> cases e
  | wlen n =>
    have e := whenNotBusy_fault e
    split at e <;> cases e
  | start op =>
    have e := whenNotBusy_fault e
    split at e
    · cases e
    · split at e
      · cases e
      · split at e <;> cases e
  | rstat => cases e
  | rlen => cases whenNotBusy_fault e
  | rerr => cases whenNotBusy_fault e
  | rres => cases whenNotBusy_fault e
  | rolen => cases whenNotBusy_fault e
  | rout i =>
    have e := whenNotBusy_fault e
    split at e <;> cases e

/-- An event faults only when it is the engine's step, on an argument that is not whole. -/
theorem eventStep_fault {e : Event} {s : State} {f : Fault} (h : eventStep e s = .fault f) :
    s.status = .busy ∧ ¬ s.ArgumentWritten := by
  cases e with
  | host a => exact absurd h (hostStep_ne_fault a s f)
  | bus a =>
    simp only [eventStep, busStep] at h
    split at h
    · exact absurd h (hostStep_ne_fault _ s f)
    · cases h
  | complete => exact engineStep_fault h
  | reset => cases h

/-- A step faults only while an operation is in progress without a whole argument. -/
theorem step_fault {s : State} {f : Fault} (h : step s = .fault f) :
    s.status = .busy ∧ ¬ s.ArgumentWritten := by
  cases hp : s.pending with
  | nil =>
    rw [step_of_pending_nil hp] at h
    by_cases hbusy : s.status = .busy
    · rw [quietStep_of_busy hbusy] at h
      exact engineStep_fault h
    · rw [quietStep_of_not_busy hbusy] at h
      cases h
  | cons e rest =>
    rw [step_of_pending_cons hp] at h
    exact eventStep_fault (s := { s with pending := rest }) h

/-- Settles O56: while the block is busy, the invariant says that the argument is whole. -/
theorem invariantExcludesFaults : Obligations.InvariantExcludesFaults := by
  intro s f hs h
  obtain ⟨hbusy, hnot⟩ := step_fault h
  exact hnot (hs.r26.busyReady hbusy).2

end Sys2Proof.Machine
end

section
/-! PROOFS. What a step performs (O1), and the access by register index (O46, O47). -/

namespace Sys2Proof.Machine

/-! ### The command in `CMD` -/

/-- The engine performs the command that `CMD` decodes to (R41, R119). -/
theorem engineStep_of_decode {s : State} {i : Instr} (h : decode s.cmd = .ok i) :
    engineStep s = exec i s := by
  simp [engineStep, h]

/-- With the engine next to move, the step is the command that `CMD` decodes to. -/
theorem step_complete_of_decode {s : State} {i : Instr} {rest : List Event}
    (hp : s.pending = .complete :: rest) (hd : decode s.cmd = .ok i) :
    step s = exec i { s with pending := rest } := by
  rw [step_of_pending_cons hp]
  exact engineStep_of_decode (s := { s with pending := rest }) hd

/-- The word of a command decodes to that command (R56). -/
theorem decode_encode (i : Instr) : decode (encode i) = .ok i := by
  cases i <;> rfl

/-- A command's word put where the engine reads its next command is the word of that command. -/
theorem State.withFetchWord_encode (s : State) (nbits : Nat) (i : Instr) :
    s.withFetchWord nbits (encode i).toNat =
      { s with cmd := encode i, status := .busy, pending := .complete :: s.pending } := by
  simp [State.withFetchWord, State.aboutToPerform]

/-- Settles O1: by what stands first on the schedule. -/
theorem stepPerformsDecodedCommand : Obligations.StepPerformsDecodedCommand := by
  intro s i
  refine ⟨fun rest hp hd => step_complete_of_decode hp hd, fun hp hbusy hd => ?_, fun nbits => ?_⟩
  · rw [step_of_pending_nil hp, quietStep_of_busy hbusy, engineStep_of_decode hd]
  · rw [State.withFetchWord_encode]
    exact step_complete_of_decode rfl (decode_encode i)

/-! ### The access by register index -/

/-- An access that the table of R35 lists is its host step. -/
theorem busStep_of_ok {a : Access} {h : HostStep} (e : a.toHostStep = .ok h) (s : State) :
    busStep a s = hostStep h s := by
  simp [busStep, e]

/-- An access that is no host step is refused. -/
theorem busStep_of_error {a : Access} {r : Refusal} (e : a.toHostStep = .error r) (s : State) :
    ∃ r, busStep a s = .refused r :=
  ⟨r, by simp [busStep, e]⟩

/-- There is nothing to read at register index 8 or above (R37). -/
theorem Access.toHostStep_read_of_le {k : Nat} (arg : Nat) (h : 8 ≤ k) :
    (Access.read k arg).toHostStep = .error (.noSuchRegister k) := by
  obtain ⟨n, rfl⟩ := Nat.exists_eq_add_of_le' h
  rfl

/-- There is nothing to write at register index 8 or above (R37). -/
theorem Access.toHostStep_write_of_le {k : Nat} (arg v : Nat) (h : 8 ≤ k) :
    (Access.write k arg v).toHostStep = .error (.noSuchRegister k) := by
  obtain ⟨n, rfl⟩ := Nat.exists_eq_add_of_le' h
  simp [Access.toHostStep]

/-- What would be refused in a block that is not busy is refused in every state (R120). -/
theorem whenNotBusy_of_refused (s : State) {k : Host.Outcome State Fault Refusal} {r : Refusal}
    (h : k = .refused r) : ∃ r, whenNotBusy s k = .refused r := by
  by_cases hs : s.status = .busy
  · exact ⟨.busy, whenNotBusy_shut hs k⟩
  · exact ⟨r, (whenNotBusy_open hs k).trans h⟩

/-- Settles O46: the windows check their index behind the gate of R120, and the index map has no row
from 8 on. -/
theorem indexOutOfRangeRefused : Obligations.IndexOutOfRangeRefused := by
  intro s
  refine ⟨fun i b hi => ?_, fun i hi => ?_, fun k arg hk => ?_, fun k arg v hk => ?_⟩
  · exact whenNotBusy_of_refused s (if_pos hi)
  · exact whenNotBusy_of_refused s (if_pos hi)
  · exact busStep_of_error (Access.toHostStep_read_of_le arg hk) s
  · exact busStep_of_error (Access.toHostStep_write_of_le arg v hk) s

/-- A write of index 0 that fits the three bits of `CMD` is `START` (R35). -/
theorem Access.toHostStep_write_zero {v : Nat} (arg : Nat) (h : v < 8) :
    (Access.write 0 arg v).toHostStep = .ok (.start (BitVec.ofNat 3 v)) := if_pos h

/-- A write of index 0 that does not fit the three bits of `CMD` is none. -/
theorem Access.toHostStep_write_zero_of_le {v : Nat} (arg : Nat) (h : 8 ≤ v) :
    (Access.write 0 arg v).toHostStep = .error (.valueTooWide 0) := if_neg (Nat.not_lt.2 h)

/-- A write of the `IN` window that fits a byte is `WIN` (R35). -/
theorem Access.toHostStep_write_six {v : Nat} (arg : Nat) (h : v < 256) :
    (Access.write 6 arg v).toHostStep = .ok (.win arg (BitVec.ofNat 8 v)) := if_pos h

/-- A write of the `IN` window that does not fit a byte is none. -/
theorem Access.toHostStep_write_six_of_le {v : Nat} (arg : Nat) (h : 256 ≤ v) :
    (Access.write 6 arg v).toHostStep = .error (.valueTooWide 6) := if_neg (Nat.not_lt.2 h)

/-- The two write-only registers have no read (R24). -/
theorem Access.toHostStep_read_writeOnly {k : Nat} (arg : Nat) (h : k ∈ [0, 6]) :
    (Access.read k arg).toHostStep = .error (.noSuchAccess k) := by
  fin_cases h <;> rfl

/-- The five read-only registers have no write (R24). -/
theorem Access.toHostStep_write_readOnly {k : Nat} (arg v : Nat) (h : k ∈ [1, 2, 3, 5, 7]) :
    (Access.write k arg v).toHostStep = .error (.noSuchAccess k) := by
  fin_cases h <;> rfl

/-- Settles O47: row by row, by the host step that the access is. -/
theorem registerIndexMap : Obligations.RegisterIndexMap := by
  intro s arg v
  exact ⟨fun hv => busStep_of_ok (Access.toHostStep_write_zero arg hv) s,
    busStep_of_ok rfl s, busStep_of_ok rfl s, busStep_of_ok rfl s, busStep_of_ok rfl s,
    busStep_of_ok rfl s, busStep_of_ok rfl s,
    fun hv => busStep_of_ok (Access.toHostStep_write_six arg hv) s,
    busStep_of_ok rfl s,
    fun _ hk => busStep_of_error (Access.toHostStep_read_writeOnly arg hk) s,
    fun _ hk => busStep_of_error (Access.toHostStep_write_readOnly arg v hk) s,
    fun hv => busStep_of_error (Access.toHostStep_write_zero_of_le arg hv) s,
    fun hv => busStep_of_error (Access.toHostStep_write_six_of_le arg hv) s⟩

end Sys2Proof.Machine
end

section
/-! PROOFS. The command words (O3), the contents of `ENC_ROM` (O6), the tail tables (O13), the
40-bit group as a row of bits (O11, O12), and the bits that the encoder's data symbols carry (O15). -/

namespace Sys2Proof.Machine

open Sys2Proof.Reference

/-! ### The tables -/

/-- Settles O3: seven of the words are those of the commands, the eighth is reserved, and 8 does not
fit three bits. -/
theorem commandWordsDecode : Obligations.CommandWordsDecode :=
  ⟨decode_encode .enc, decode_encode .encu, decode_encode .dec, decode_encode .decu,
    decode_encode .decp, decode_encode .valid, decode_encode .isb32, rfl, rfl, rfl, rfl⟩

/-- Settles O6: by the 32 symbol values. -/
theorem encodeTableIsAlphabet : Obligations.EncodeTableIsAlphabet := by
  refine ⟨?letters, ?digits, ?alphabet⟩
  case letters => decide
  case digits => decide
  case alphabet => rfl

/-- The closed form of `q` (R52). -/
theorem dataSymbols_eq {r : Nat} (h : r ≤ 4) : dataSymbols r = (8 * r + 4) / 5 := by
  interval_cases r <;> rfl

/-- The data symbols and the pad characters of a tail that is not empty fill one block (R52). -/
theorem dataSymbols_add_padSymbols {r : Nat} (h1 : 1 ≤ r) (h4 : r ≤ 4) :
    dataSymbols r + padSymbols r = 8 := by
  interval_cases r <;> rfl

/-- `rq` inverts `q`: the data symbols of a tail of `r` bytes hold `r` bytes (R53). -/
theorem blockByteCount_dataSymbols {r : Nat} (h : r ≤ 4) : blockByteCount (dataSymbols r) = r := by
  rw [dataSymbols_eq h, blockByteCount]
  omega

/-- Settles O13: the tables entry by entry, the relations between them by the lemmas above. -/
theorem tailTables : Obligations.TailTables :=
  ⟨rfl, rfl, fun _ h1 h4 => Nat.eq_sub_of_add_eq' (dataSymbols_add_padSymbols h1 h4),
    fun _ h => dataSymbols_eq h, rfl, rfl, fun _ _ h4 => blockByteCount_dataSymbols h4, rfl, rfl,
    rfl⟩

/-! ### Words as rows of bits -/

/-- The bits of a word, the most significant bit first (R32). -/
def bitsOf {n : Nat} (w : BitVec n) : List Bool := (List.range n).map w.getMsbD

theorem bitsOfBytes_eq_flatMap (x : List Byte) : bitsOfBytes x = x.flatMap bitsOf := rfl

theorem bitsOfSyms_eq_flatMap (v : List Sym) : bitsOfSyms v = v.flatMap bitsOf := rfl

@[simp] theorem bitsOf_length {n : Nat} (w : BitVec n) : (bitsOf w).length = n := by
  simp [bitsOf]

/-- A word is its row of bits. -/
theorem eq_of_bitsOf_eq {n : Nat} {u w : BitVec n} (h : bitsOf u = bitsOf w) : u = w :=
  BitVec.eq_of_getMsbD_eq fun i hi => List.map_inj_left.1 h i (List.mem_range.2 hi)

/-- Putting words side by side puts their rows of bits side by side. -/
theorem bitsOf_append {m n : Nat} (u : BitVec m) (w : BitVec n) :
    bitsOf (u ++ w) = bitsOf u ++ bitsOf w := by
  apply List.ext_getElem
  · simp
  · intro i _ _
    by_cases hi : i < m
    · simp [bitsOf, BitVec.getMsbD_append, hi, Nat.not_le.2 hi]
    · simp [bitsOf, BitVec.getMsbD_append, Nat.not_lt.1 hi]

/-- A bit field of a word is a stretch of its row of bits. -/
theorem bitsOf_extractLsb' {n start len : Nat} (w : BitVec n) (h : start + len ≤ n) :
    bitsOf (w.extractLsb' start len) = ((bitsOf w).drop (n - (start + len))).take len := by
  apply List.ext_getElem
  · simp
    omega
  · intro i hi _
    have hlen : i < len := by simpa using hi
    have hfield : start + len - i ≤ n := by omega
    have hpos : n - (start + len - i) = n - (start + len) + i := by omega
    simp [bitsOf, BitVec.getMsbD_extractLsb', hlen, hfield, hpos]

/-- The zero word is a row of zeros. -/
theorem bitsOf_zero (n : Nat) : bitsOf (0#n) = List.replicate n false := by
  apply List.ext_getElem <;> simp [bitsOf]

/-! ### The accumulator -/

/-- The accumulator holds the bits of its five bytes, in order (R49). -/
theorem bitsOf_accOfBytes (b0 b1 b2 b3 b4 : Byte) :
    bitsOf (accOfBytes b0 b1 b2 b3 b4) = bitsOfBytes [b0, b1, b2, b3, b4] := by
  rw [accOfBytes, bitsOf_append, bitsOf_append, bitsOf_append, bitsOf_append]
  simp [bitsOfBytes_eq_flatMap]

/-- The accumulator holds the bits of its eight symbol values, in order (R50). -/
theorem bitsOf_accOfSyms (s0 s1 s2 s3 s4 s5 s6 s7 : Sym) :
    bitsOf (accOfSyms [s0, s1, s2, s3, s4, s5, s6, s7]) =
      bitsOfSyms [s0, s1, s2, s3, s4, s5, s6, s7] := by
  rw [accOfSyms, bitsOf_append, bitsOf_append, bitsOf_append, bitsOf_append, bitsOf_append,
    bitsOf_append, bitsOf_append]
  simp [bitsOfSyms_eq_flatMap]

/-- Symbol value `sj` is the stretch of five bits from position `5j` on (R50). -/
theorem bitsOf_symAt (acc : Acc) {j : Nat} (h : j < 8) :
    bitsOf (symAt acc j) = ((bitsOf acc).drop (5 * j)).take 5 := by
  have hstart : 40 - (35 - 5 * j + 5) = 5 * j := by omega
  rw [symAt, bitsOf_extractLsb' acc (by omega), hstart]

/-- Byte `bk` is the stretch of eight bits from position `8k` on (R49). -/
theorem bitsOf_byteAt (acc : Acc) {k : Nat} (h : k < 5) :
    bitsOf (byteAt acc k) = ((bitsOf acc).drop (8 * k)).take 8 := by
  have hstart : 40 - (32 - 8 * k + 8) = 8 * k := by omega
  rw [byteAt, bitsOf_extractLsb' acc (by omega), hstart]

/-- The five bytes put into the accumulator are read back (R49). -/
theorem byteAt_accOfBytes (b0 b1 b2 b3 b4 : Byte) {k : Nat} (h : k < 5) :
    byteAt (accOfBytes b0 b1 b2 b3 b4) k = [b0, b1, b2, b3, b4][k] := by
  apply eq_of_bitsOf_eq
  rw [bitsOf_byteAt _ h, bitsOf_accOfBytes]
  interval_cases k <;> rfl

/-- The eight symbol values put into the accumulator are read back (R50). -/
theorem symAt_accOfSyms (s0 s1 s2 s3 s4 s5 s6 s7 : Sym) {j : Nat} (h : j < 8) :
    symAt (accOfSyms [s0, s1, s2, s3, s4, s5, s6, s7]) j = [s0, s1, s2, s3, s4, s5, s6, s7][j] := by
  apply eq_of_bitsOf_eq
  rw [bitsOf_symAt _ h, bitsOf_accOfSyms]
  interval_cases j <;> rfl

/-- Settles O11: the two bit fields are `byteAt` and `symAt`. -/
theorem accumulatorHoldsFields : Obligations.AccumulatorHoldsFields :=
  ⟨fun b0 b1 b2 b3 b4 _ h => byteAt_accOfBytes b0 b1 b2 b3 b4 h,
    fun s0 s1 s2 s3 s4 s5 s6 s7 _ h => symAt_accOfSyms s0 s1 s2 s3 s4 s5 s6 s7 h⟩

/-- A symbol value of a group of bytes is the word `w` when `w` has its five of the group's bits. -/
theorem symAt_accOfBytes_eq {b0 b1 b2 b3 b4 : Byte} {j : Nat} (h : j < 8) {w : Sym}
    (hw : ((bitsOfBytes [b0, b1, b2, b3, b4]).drop (5 * j)).take 5 = bitsOf w) :
    symAt (accOfBytes b0 b1 b2 b3 b4) j = w := by
  apply eq_of_bitsOf_eq
  rw [bitsOf_symAt _ h, bitsOf_accOfBytes, hw]

/-- A byte of a block of symbols is the word `w` when `w` has its eight of the block's bits. -/
theorem byteAt_accOfSyms_eq {s0 s1 s2 s3 s4 s5 s6 s7 : Sym} {k : Nat} (h : k < 5) {w : Byte}
    (hw : ((bitsOfSyms [s0, s1, s2, s3, s4, s5, s6, s7]).drop (8 * k)).take 8 = bitsOf w) :
    byteAt (accOfSyms [s0, s1, s2, s3, s4, s5, s6, s7]) k = w := by
  apply eq_of_bitsOf_eq
  rw [bitsOf_byteAt _ h, bitsOf_accOfSyms, hw]

/-- Settles O12: in each row both sides are the same stretch of the group's bits. -/
theorem groupBitLayout : Obligations.GroupBitLayout := by
  refine ⟨fun b0 b1 b2 b3 b4 => ?bytes, fun s0 s1 s2 s3 s4 s5 s6 s7 => ?symbols⟩
  case bytes =>
    refine ⟨?_, ?_, ?_, ?_, ?_, ?_, ?_, ?_⟩
    all_goals
      apply symAt_accOfBytes_eq (by decide)
      repeat rw [bitsOf_append]
      repeat rw [bitsOf_extractLsb' _ (by decide)]
      rfl
  case symbols =>
    refine ⟨?_, ?_, ?_, ?_, ?_⟩
    all_goals
      apply byteAt_accOfSyms_eq (by decide)
      repeat rw [bitsOf_append]
      repeat rw [bitsOf_extractLsb' _ (by decide)]
      rfl

/-! ### The encoder's bits -/

/-- The eight symbol values of an accumulator, in text order (R50). -/
def groupSyms (acc : Acc) : List Sym := [0, 1, 2, 3, 4, 5, 6, 7].map (symAt acc)

@[simp] theorem groupSyms_length (acc : Acc) : (groupSyms acc).length = 8 := rfl

theorem pack5_eq_groupSyms (b0 b1 b2 b3 b4 : Byte) :
    pack5 b0 b1 b2 b3 b4 = (groupSyms (accOfBytes b0 b1 b2 b3 b4)).map encRom :=
  pack5_eq_map b0 b1 b2 b3 b4

/-- The symbol values of an accumulator carry exactly its bits. -/
theorem bitsOfSyms_groupSyms (acc : Acc) : bitsOfSyms (groupSyms acc) = bitsOf acc := by
  have hsyms : bitsOfSyms (groupSyms acc) =
      [0, 1, 2, 3, 4, 5, 6, 7].flatMap fun j => ((bitsOf acc).drop (5 * j)).take 5 := by
    simp [groupSyms, bitsOfSyms_eq_flatMap, bitsOf_symAt]
  rw [hsyms]
  rfl

theorem bitsOfBytes_append (x y : List Byte) :
    bitsOfBytes (x ++ y) = bitsOfBytes x ++ bitsOfBytes y := List.flatMap_append

theorem bitsOfSyms_append (v w : List Sym) :
    bitsOfSyms (v ++ w) = bitsOfSyms v ++ bitsOfSyms w := List.flatMap_append

theorem bitsOfSyms_cons (s : Sym) (v : List Sym) :
    bitsOfSyms (s :: v) = bitsOf s ++ bitsOfSyms v := List.flatMap_cons

theorem bitsOfBytes_length (x : List Byte) : (bitsOfBytes x).length = 8 * x.length := by
  simp [bitsOfBytes_eq_flatMap, List.length_flatMap, Nat.mul_comm]

/-- Zero bytes are zero bits. -/
theorem bitsOfBytes_replicate_zero (n : Nat) :
    bitsOfBytes (List.replicate n 0#8) = List.replicate (8 * n) false := by
  rw [bitsOfBytes_eq_flatMap, List.flatMap_replicate, bitsOf_zero, List.flatten_replicate_replicate,
    Nat.mul_comm]

/-- The first `q` symbol values carry the first `5q` bits. -/
theorem bitsOfSyms_take (q : Nat) (v : List Sym) :
    bitsOfSyms (v.take q) = (bitsOfSyms v).take (5 * q) := by
  induction v generalizing q with
  | nil => simp [bitsOfSyms_eq_flatMap]
  | cons s v ih =>
    cases q with
    | zero => simp [bitsOfSyms_eq_flatMap]
    | succ q =>
      have hs : (bitsOf s).length ≤ 5 * q + 5 := by simp
      rw [List.take_succ_cons, bitsOfSyms_cons, bitsOfSyms_cons, ih, Nat.mul_succ, List.take_append,
        List.take_of_length_le hs, bitsOf_length, Nat.add_sub_cancel]

/-- A tail of at most four bytes, zero-extended on the right to a group (R77). -/
def tailAcc (t : List Byte) : Acc :=
  accOfBytes (t.getD 0 0#8) (t.getD 1 0#8) (t.getD 2 0#8) (t.getD 3 0#8) (t.getD 4 0#8)

theorem tailText_false_eq (t : List Byte) :
    tailText false t = ((groupSyms (tailAcc t)).take (dataSymbols t.length)).map encRom := by
  simp [tailText, tailAcc, pack5_eq_groupSyms]

/-- The zero-extended tail holds the tail's bits, then zeros. -/
theorem bitsOf_tailAcc {t : List Byte} (h : t.length ≤ 4) :
    bitsOf (tailAcc t) = bitsOfBytes t ++ List.replicate (8 * (5 - t.length)) false := by
  have hext : [t.getD 0 0#8, t.getD 1 0#8, t.getD 2 0#8, t.getD 3 0#8, t.getD 4 0#8] =
      t ++ List.replicate (5 - t.length) 0#8 := by
    match t, h with
    | [], _ => rfl
    | [_], _ => rfl
    | [_, _], _ => rfl
    | [_, _, _], _ => rfl
    | [_, _, _, _], _ => rfl
  rw [tailAcc, bitsOf_accOfBytes, hext, bitsOfBytes_append, bitsOfBytes_replicate_zero]

/-- The symbol values `v` are as many as the bits of `x` take, and carry these bits, in order,
followed by the zero bits of the last symbol. -/
def CarriesBits (x : List Byte) (v : List Sym) : Prop :=
  v.length = (8 * x.length + 4) / 5 ∧
    bitsOfSyms v = bitsOfBytes x ++ List.replicate (5 * v.length - 8 * x.length) false

/-- The data symbols of a tail carry the tail's bits (R77). -/
theorem carriesBits_tail {t : List Byte} (h : t.length ≤ 4) :
    CarriesBits t ((groupSyms (tailAcc t)).take (dataSymbols t.length)) := by
  have hq := dataSymbols_eq h
  have hlen : ((groupSyms (tailAcc t)).take (dataSymbols t.length)).length =
      dataSymbols t.length := by
    simp
    omega
  refine ⟨hlen.trans hq, ?_⟩
  have hpast : 8 * t.length ≤ 5 * dataSymbols t.length := by omega
  have hzeros : 5 * dataSymbols t.length - 8 * t.length ≤ 8 * (5 - t.length) := by omega
  rw [hlen, bitsOfSyms_take, bitsOfSyms_groupSyms, bitsOf_tailAcc h, List.take_append,
    List.take_of_length_le (by rwa [bitsOfBytes_length]), bitsOfBytes_length, List.take_replicate,
    min_eq_left hzeros]

/-- A whole group in front brings its eight symbols and its 40 bits (R76). -/
theorem CarriesBits.group_append {x : List Byte} {v : List Sym} (h : CarriesBits x v)
    (b0 b1 b2 b3 b4 : Byte) :
    CarriesBits (b0 :: b1 :: b2 :: b3 :: b4 :: x)
      (groupSyms (accOfBytes b0 b1 b2 b3 b4) ++ v) := by
  obtain ⟨hlen, hbits⟩ := h
  have hx : (b0 :: b1 :: b2 :: b3 :: b4 :: x).length = x.length + 5 := rfl
  have hv : (groupSyms (accOfBytes b0 b1 b2 b3 b4) ++ v).length = v.length + 8 := by
    simp [Nat.add_comm]
  have hfill : 5 * (v.length + 8) - 8 * (x.length + 5) = 5 * v.length - 8 * x.length := by omega
  have hgroup : bitsOfBytes (b0 :: b1 :: b2 :: b3 :: b4 :: x) =
      bitsOfBytes [b0, b1, b2, b3, b4] ++ bitsOfBytes x :=
    bitsOfBytes_append [b0, b1, b2, b3, b4] x
  constructor
  · omega
  · rw [hv, hx, hfill, bitsOfSyms_append, bitsOfSyms_groupSyms, bitsOf_accOfBytes, hbits, hgroup,
      List.append_assoc]

/-- Every unpadded text is made of data symbols that carry the bits of the input (R78). -/
theorem encodeText_false_carriesBits (x : List Byte) :
    ∃ v, encodeText false x = v.map encRom ∧ CarriesBits x v := by
  induction x using encodeText.induct with
  | case1 => exact ⟨[], rfl, rfl, rfl⟩
  | case2 b0 => exact ⟨_, tailText_false_eq [b0], carriesBits_tail (by simp)⟩
  | case3 b0 b1 => exact ⟨_, tailText_false_eq [b0, b1], carriesBits_tail (by simp)⟩
  | case4 b0 b1 b2 => exact ⟨_, tailText_false_eq [b0, b1, b2], carriesBits_tail (by simp)⟩
  | case5 b0 b1 b2 b3 => exact ⟨_, tailText_false_eq [b0, b1, b2, b3], carriesBits_tail (by simp)⟩
  | case6 b0 b1 b2 b3 b4 rest ih =>
    obtain ⟨v, htext, hcarries⟩ := ih
    refine ⟨_, ?_, hcarries.group_append b0 b1 b2 b3 b4⟩
    rw [encodeText, pack5_eq_groupSyms, htext, List.map_append]

/-- Settles O15: group by group, and the tail by its zero extension. -/
theorem encoderRegroupsBits : Obligations.EncoderRegroupsBits := encodeText_false_carriesBits

end Sys2Proof.Machine
end

section
/-! PROOFS. The two lookup tables: `ENC_ROM` is injective (O7), `DEC_ROM` inverts it and tells the
codes apart (O8, O10), and how many codes there are of each kind (O9). -/

namespace Sys2Proof.Machine

/-! ### The decode table inverts the encode table -/

/-- The codes of the letters (R65). -/
theorem encRom_toNat_letter {v : Sym} (h : v.toNat ≤ 25) : (encRom v).toNat = 0x41 + v.toNat :=
  encodeTableIsAlphabet.1 v h

/-- The codes of the digits (R65). -/
theorem encRom_toNat_digit {v : Sym} (h : 26 ≤ v.toNat) :
    (encRom v).toNat = 0x32 + (v.toNat - 26) :=
  encodeTableIsAlphabet.2.1 v h

theorem decRom_of_letter {b : Byte} (h : 0x41 ≤ b.toNat ∧ b.toNat ≤ 0x5A) :
    decRom b = .value (BitVec.ofNat 5 (b.toNat - 0x41)) := if_pos h

theorem decRom_of_digit {b : Byte} (h : 0x32 ≤ b.toNat ∧ b.toNat ≤ 0x37) :
    decRom b = .value (BitVec.ofNat 5 (b.toNat - 0x32 + 26)) := by
  have hletter : ¬(0x41 ≤ b.toNat ∧ b.toNat ≤ 0x5A) := by omega
  rw [decRom, if_neg hletter, if_pos h]

/-- A code that is no letter, no digit of the alphabet and no pad is invalid (R67). -/
theorem decRom_of_other {b : Byte} (hletter : ¬(0x41 ≤ b.toNat ∧ b.toNat ≤ 0x5A))
    (hdigit : ¬(0x32 ≤ b.toNat ∧ b.toNat ≤ 0x37)) (hpad : b ≠ pad) : decRom b = .invalid := by
  rw [decRom, if_neg hletter, if_neg hdigit, if_neg hpad]

/-- Decoding the code of a symbol value returns the value (R70). -/
@[simp] theorem decRom_encRom (v : Sym) : decRom (encRom v) = .value v := by
  by_cases hv : v.toNat ≤ 25
  · have hcode := encRom_toNat_letter hv
    rw [decRom_of_letter (by omega), hcode, Nat.add_sub_cancel_left, BitVec.ofNat_toNat,
      BitVec.setWidth_eq]
  · have hcode := encRom_toNat_digit (Nat.lt_of_not_le hv)
    have hback : 0x32 + (v.toNat - 26) - 0x32 + 26 = v.toNat := by omega
    rw [decRom_of_digit (by omega), hcode, hback, BitVec.ofNat_toNat, BitVec.setWidth_eq]

/-- The code of a decoded value is the code that was decoded (R70). -/
theorem encRom_of_decRom {b : Byte} {v : Sym} (h : decRom b = .value v) : encRom v = b := by
  apply BitVec.eq_of_toNat_eq
  by_cases hletter : 0x41 ≤ b.toNat ∧ b.toNat ≤ 0x5A
  · cases (decRom_of_letter hletter).symm.trans h
    have hv : (BitVec.ofNat 5 (b.toNat - 0x41)).toNat = b.toNat - 0x41 := by
      rw [BitVec.toNat_ofNat, Nat.mod_eq_of_lt (by omega)]
    rw [encRom_toNat_letter (by omega), hv]
    omega
  · by_cases hdigit : 0x32 ≤ b.toNat ∧ b.toNat ≤ 0x37
    · cases (decRom_of_digit hdigit).symm.trans h
      have hv : (BitVec.ofNat 5 (b.toNat - 0x32 + 26)).toNat = b.toNat - 0x32 + 26 := by
        rw [BitVec.toNat_ofNat, Nat.mod_eq_of_lt (by omega)]
      rw [encRom_toNat_digit (by omega), hv]
      omega
    · by_cases hpad : b = pad
      · cases ((decRom_eq_padding_iff b).2 hpad).symm.trans h
      · cases (decRom_of_other hletter hdigit hpad).symm.trans h

/-- Settles O10: one direction by the closed form of `ENC_ROM`, the other by that of `DEC_ROM`. -/
theorem tablesAgree : Obligations.TablesAgree :=
  ⟨decRom_encRom, fun _ _ => encRom_of_decRom⟩

/-- `DEC_ROM` is a left inverse, so no two values share a code (R66). -/
theorem encRom_injective : Function.Injective encRom := by
  intro v w h
  have hdec : DecEntry.value v = .value w := by rw [← decRom_encRom v, h, decRom_encRom w]
  exact DecEntry.value.inj hdec

/-- The pad decodes to no value, so it is no value's code (R66). -/
theorem encRom_ne_pad (v : Sym) : encRom v ≠ pad := by
  intro h
  have hdec := (decRom_eq_padding_iff (encRom v)).2 h
  rw [decRom_encRom] at hdec
  cases hdec

/-- Settles O7: both parts follow from `DEC_ROM` inverting `ENC_ROM`. -/
theorem encodeTableInjective : Obligations.EncodeTableInjective :=
  ⟨fun _ _ h => encRom_injective h, encRom_ne_pad⟩

/-! ### The kinds of code -/

theorem decRom_eq_value_iff (b : Byte) (v : Sym) : decRom b = .value v ↔ b = encRom v :=
  ⟨fun h => (encRom_of_decRom h).symm, fun h => h ▸ decRom_encRom v⟩

theorem decRom_eq_invalid_iff (b : Byte) :
    decRom b = .invalid ↔ b ≠ pad ∧ ∀ v, b ≠ encRom v := by
  rw [Ne, ← decRom_eq_padding_iff]
  simp only [Ne, ← decRom_eq_value_iff]
  cases decRom b <;> simp

/-- Lower-case letters and the codes from `0x80` lie outside both ranges of the alphabet (R69). -/
theorem decRom_lowerCase_or_high {b : Byte}
    (h : 0x61 ≤ b.toNat ∧ b.toNat ≤ 0x7A ∨ 0x80 ≤ b.toNat) : decRom b = .invalid := by
  have hpad : b ≠ pad := by
    rintro rfl
    exact absurd h (by decide)
  exact decRom_of_other (by omega) (by omega) hpad

/-- Settles O8: each kind by its lemma, the eight listed codes by their entries. -/
theorem decodeTableClassifies : Obligations.DecodeTableClassifies :=
  ⟨decRom_eq_value_iff, decRom_eq_padding_iff, decRom_eq_invalid_iff,
    fun _ => decRom_lowerCase_or_high, by decide⟩

/-! ### How many codes there are of each kind -/

/-- All words of `n` bits, in rising order. -/
def allWords (n : Nat) : List (BitVec n) := (List.range (2 ^ n)).map (BitVec.ofNat n)

@[simp] theorem allWords_length (n : Nat) : (allWords n).length = 2 ^ n := by simp [allWords]

@[simp] theorem mem_allWords {n : Nat} (w : BitVec n) : w ∈ allWords n :=
  List.mem_map.2 ⟨w.toNat, List.mem_range.2 w.isLt, BitVec.eq_of_toNat_eq (by simp)⟩

theorem allWords_nodup (n : Nat) : (allWords n).Nodup := by
  refine List.nodup_range.map_on fun i hi j hj hij => ?_
  rwa [← BitVec.toNat_inj, BitVec.toNat_ofNat, BitVec.toNat_ofNat,
    Nat.mod_eq_of_lt (List.mem_range.1 hi), Nat.mod_eq_of_lt (List.mem_range.1 hj)] at hij

/-- As many words meet `p` as there are on a list of just these words without repetition. -/
theorem countP_allWords {n : Nat} {p : BitVec n → Bool} {l : List (BitVec n)} (hl : l.Nodup)
    (hp : ∀ w, p w = true ↔ w ∈ l) : (allWords n).countP p = l.length := by
  have hperm : (allWords n).filter p |>.Perm l :=
    (List.perm_ext_iff_of_nodup ((allWords_nodup n).filter p) hl).2 fun w => by simp [hp]
  rw [List.countP_eq_length_filter, hperm.length_eq]

/-- Whether an entry of `DEC_ROM` is a value, as O9 counts them. -/
def DecEntry.isValue (e : DecEntry) : Bool := e != .padding && e != .invalid

theorem DecEntry.isValue_iff (e : DecEntry) : e.isValue = true ↔ ∃ v, e = .value v := by
  cases e <;> simp [DecEntry.isValue]

/-- Every entry is of one of the three kinds. -/
theorem countP_isValue_add_count (l : List DecEntry) :
    l.countP DecEntry.isValue + l.count .padding + l.count .invalid = l.length := by
  induction l with
  | nil => rfl
  | cons e l ih =>
    cases e <;> simp [DecEntry.isValue, List.countP_cons] <;> omega

/-- The entries of `DEC_ROM`, in the order of the codes (R67). -/
def decEntries : List DecEntry := (List.range 256).map fun n => decRom (BitVec.ofNat 8 n)

theorem decEntries_eq_map : decEntries = (allWords 8).map decRom := by
  simp [decEntries, allWords]

/-- The codes with a value are those of the 32 symbols, all different (R68). -/
theorem decEntries_countP_isValue : decEntries.countP DecEntry.isValue = 32 := by
  have hmem (b : Byte) : (DecEntry.isValue ∘ decRom) b = true ↔ b ∈ (allWords 5).map encRom := by
    rw [Function.comp_apply, DecEntry.isValue_iff]
    simp [decRom_eq_value_iff, eq_comm]
  rw [decEntries_eq_map, List.countP_map,
    countP_allWords ((allWords_nodup 5).map encRom_injective) hmem, List.length_map,
    allWords_length]
  rfl

theorem decEntries_count_padding : decEntries.count .padding = 1 := by
  have hmem (b : Byte) : ((· == DecEntry.padding) ∘ decRom) b = true ↔ b ∈ [pad] := by
    simp [decRom_eq_padding_iff]
  rw [decEntries_eq_map, List.count, List.countP_map,
    countP_allWords (List.nodup_singleton pad) hmem, List.length_singleton]

/-- What is left of the 256 entries: `256 - 33` (R68). -/
theorem decEntries_count_invalid : decEntries.count .invalid = 223 := by
  have htotal := countP_isValue_add_count decEntries
  have hlength : decEntries.length = 256 := by simp [decEntries]
  rw [decEntries_countP_isValue, decEntries_count_padding, hlength] at htotal
  omega

/-- Settles O9: the three counts, and each value at the code `ENC_ROM` gives it. -/
theorem decodeTableCounts : Obligations.DecodeTableCounts :=
  ⟨decEntries_countP_isValue,
    fun v => ⟨encRom v, decRom_encRom v, fun c => (decRom_eq_value_iff c v).1⟩,
    decEntries_count_padding, (decRom_eq_padding_iff pad).2 rfl, decEntries_count_invalid⟩

end Sys2Proof.Machine
end

section
/-! PROOFS. The encoder: `ENCODE` by groups (O14), the lengths of its texts (O16), the two variants
against each other (O18), `ENC` and `ENCU` as commands (O33, O34), and the empty argument (O17). -/

namespace Sys2Proof.Machine

/-! ### Groups and tail -/

/-- The text of group `k` of a sequence: the bytes `B[5k]` to `B[5k+4]` packed (R78). -/
def groupText (x : List Byte) (k : Nat) : List Byte :=
  pack5 (x.getD (5 * k) 0#8) (x.getD (5 * k + 1) 0#8) (x.getD (5 * k + 2) 0#8)
    (x.getD (5 * k + 3) 0#8) (x.getD (5 * k + 4) 0#8)

/-- Behind a group in front stand the groups of the rest. -/
theorem groupText_succ (b0 b1 b2 b3 b4 : Byte) (x : List Byte) (k : Nat) :
    groupText (b0 :: b1 :: b2 :: b3 :: b4 :: x) (k + 1) = groupText x k := rfl

/-- The groups in buffer order, then the tail if there is one (R78). -/
theorem encodeText_eq_groups (padded : Bool) (x : List Byte) :
    encodeText padded x = (List.range (x.length / 5)).flatMap (groupText x) ++
      if x.length % 5 ≠ 0 then tailText padded (x.drop (5 * (x.length / 5))) else [] := by
  induction x using encodeText.induct with
  | case1 => rfl
  | case2 b0 => simp [encodeText]
  | case3 b0 b1 => simp [encodeText]
  | case4 b0 b1 b2 => simp [encodeText]
  | case5 b0 b1 b2 b3 => simp [encodeText]
  | case6 b0 b1 b2 b3 b4 rest ih =>
    have hlen : (b0 :: b1 :: b2 :: b3 :: b4 :: rest).length = rest.length + 5 := rfl
    have hgroups : (List.range (rest.length / 5 + 1)).flatMap
        (groupText (b0 :: b1 :: b2 :: b3 :: b4 :: rest)) =
        pack5 b0 b1 b2 b3 b4 ++ (List.range (rest.length / 5)).flatMap (groupText rest) := by
      rw [List.range_succ_eq_map, List.flatMap_cons, List.flatMap_map]
      simp only [Nat.succ_eq_add_one, groupText_succ]
      rfl
    have hdrop : (b0 :: b1 :: b2 :: b3 :: b4 :: rest).drop (5 * (rest.length / 5 + 1)) =
        rest.drop (5 * (rest.length / 5)) := rfl
    rw [encodeText, ih, hlen, Nat.add_mod_right, Nat.add_div_right _ (by decide), hgroups, hdrop,
      List.append_assoc]

/-! ### The padded and the unpadded text -/

/-- The padded tail is the unpadded one with its pad characters behind it (R77). -/
theorem tailText_true_eq (t : List Byte) :
    tailText true t = tailText false t ++ List.replicate (padSymbols t.length) pad := by
  simp [tailText]

/-- The padded text is the unpadded one with the pad characters of its tail behind it (R84). -/
theorem encodeText_true_eq (x : List Byte) :
    encodeText true x = encodeText false x ++ List.replicate (padSymbols (x.length % 5)) pad := by
  induction x using encodeText.induct with
  | case1 => rfl
  | case2 b0 => exact tailText_true_eq [b0]
  | case3 b0 b1 => exact tailText_true_eq [b0, b1]
  | case4 b0 b1 b2 => exact tailText_true_eq [b0, b1, b2]
  | case5 b0 b1 b2 b3 => exact tailText_true_eq [b0, b1, b2, b3]
  | case6 b0 b1 b2 b3 b4 rest ih =>
    have hlen : (b0 :: b1 :: b2 :: b3 :: b4 :: rest).length = rest.length + 5 := rfl
    rw [encodeText, encodeText, ih, hlen, Nat.add_mod_right, List.append_assoc]

/-- Without a tail the two texts are the same (R79, R80). -/
theorem encodeText_false_eq_true {x : List Byte} (h : x.length % 5 = 0) :
    encodeText false x = encodeText true x := by
  simp [encodeText_true_eq, h, padSymbols]

/-- The unpadded text holds no pad character: each of its characters is the code of a value (R84). -/
theorem pad_not_mem_encodeText_false (x : List Byte) : pad ∉ encodeText false x := by
  obtain ⟨v, htext, _⟩ := encodeText_false_carriesBits x
  rw [htext, List.mem_map]
  rintro ⟨w, _, hw⟩
  exact encRom_ne_pad w hw

/-- A text is data symbols, with pads at the end in the padded variant only (R78). -/
theorem encodeText_eq_symbols_append_pads (padded : Bool) (x : List Byte) :
    ∃ (v : List Sym) (k : Nat), encodeText padded x = v.map encRom ++ List.replicate k pad ∧
      (padded = false → k = 0) := by
  obtain ⟨v, htext, _⟩ := encodeText_false_carriesBits x
  cases padded with
  | false => exact ⟨v, 0, by simpa using htext, fun _ => rfl⟩
  | true => exact ⟨v, padSymbols (x.length % 5), by rw [encodeText_true_eq, htext], nofun⟩

/-- Settles O14: the groups by recursion five bytes at a time, the characters by the symbol values
of the unpadded text. -/
theorem encodeByGroups : Obligations.EncodeByGroups :=
  fun padded x => ⟨encodeText_eq_groups padded x, encodeText_eq_symbols_append_pads padded x⟩

/-- Settles O18: the common part is as long as the unpadded text. -/
theorem unpaddedIsPaddedStripped : Obligations.UnpaddedIsPaddedStripped := by
  intro x
  have hlen : (encodeText false x).length = 8 * (x.length / 5) + dataSymbols (x.length % 5) :=
    encodeText_length false x
  refine ⟨pad_not_mem_encodeText_false x, encodeText_true_eq x, ?_⟩
  rw [encodeText_true_eq, List.take_left' hlen]

/-! ### Lengths -/

/-- The length of the padded text: whole blocks, one for each group begun (R81). -/
theorem encodeText_true_length (x : List Byte) :
    (encodeText true x).length = 8 * ((x.length + 4) / 5) := by
  have hlen : (encodeText true x).length =
      8 * (x.length / 5) + dataSymbols (x.length % 5) + padSymbols (x.length % 5) :=
    encodeText_length true x
  by_cases h0 : x.length % 5 = 0
  · have hq : dataSymbols (x.length % 5) = 0 := by rw [h0]; rfl
    have hp : padSymbols (x.length % 5) = 0 := by rw [h0]; rfl
    omega
  · have hblock : dataSymbols (x.length % 5) + padSymbols (x.length % 5) = 8 :=
      dataSymbols_add_padSymbols (by omega) (by omega)
    omega

theorem encodeText_true_length_mod (x : List Byte) : (encodeText true x).length % 8 = 0 := by
  rw [encodeText_true_length, Nat.mul_mod_right]

/-- The row `q` of the tail table (R52). -/
theorem getD_eq_dataSymbols {r : Nat} (h : r < 5) : [0, 2, 4, 5, 7].getD r 0 = dataSymbols r := by
  interval_cases r <;> rfl

/-- The row of the lengths of a padded tail (R81). -/
theorem getD_eq_paddedTail {r : Nat} (h : r < 5) :
    [0, 8, 8, 8, 8].getD r 0 = 8 * ((r + 4) / 5) := by
  interval_cases r <;> rfl

/-- Settles O16: whole groups make eight characters each, and the tail by its remainder. -/
theorem encodedLengths : Obligations.EncodedLengths := by
  intro x
  have hr : x.length % 5 < 5 := Nat.mod_lt _ (by decide)
  refine ⟨encodeText_true_length x, encodeText_true_length_mod x, ?_, ?_⟩
  · rw [getD_eq_dataSymbols hr]
    exact encodeText_length false x
  · rw [getD_eq_paddedTail hr, encodeText_true_length]
    omega

/-! ### The commands -/

/-- A command on a present argument writes its row of the case table of R119. -/
theorem exec_ready (i : Instr) {s : State} {x : List Byte} (h : s.Ready x) :
    exec i s = .next (s.writeBack (commandResult i x)) := by
  rw [exec_eq_complete, complete_ready _ h]

/-- Settles O33: the write-back of R119, then the corner cases, then the examples by evaluation. -/
theorem encCompletes : Obligations.EncCompletes := by
  refine ⟨fun _ _ h => exec_ready .enc h, rfl, fun x h => ?_, encodeText_true_length_mod, ?_, ?_,
    ?_⟩
  · rw [← encodeText_false_eq_true h]
    exact pad_not_mem_encodeText_false x
  all_goals decide

/-- Settles O34: the write-back of R119, then the corner cases, then the example by evaluation. -/
theorem encuCompletes : Obligations.EncuCompletes :=
  ⟨fun _ _ h => exec_ready .encu h, rfl, pad_not_mem_encodeText_false,
    fun _ h => encodeText_false_eq_true h, by decide⟩

/-- No encoder and no decoder makes a byte or an error of the empty argument (R82, R86). -/
theorem commandResult_nil :
    ∀ i ∈ [Instr.enc, .encu, .dec, .decu, .decp], commandResult i [] = ⟨[], none, false⟩ := by
  decide

/-- Settles O17: the routines by evaluation, the commands by their rows of R119. -/
theorem emptyArgumentResults : Obligations.EmptyArgumentResults := by
  refine ⟨rfl, rfl, rfl, rfl, rfl, fun s h i hi => ?_⟩
  rw [exec_ready i h, commandResult_nil i hi]
  rfl

end Sys2Proof.Machine
end

section
/-! PROOFS. Texts of data symbols followed by a run of pads, for the decoder (O25 to O29): they
are the only ones that `UNPACK` accepts, and its result is the bytes that the data symbols hold.
-/

namespace Sys2Proof.Machine

open Sys2Proof.Reference

/-! ### Clean texts -/

/-- The text of the data symbols `v` followed by `k` pads (R104). -/
def cleanText (v : List Sym) (k : Nat) : List Byte := v.map encRom ++ List.replicate k pad

@[simp] theorem cleanText_length (v : List Sym) (k : Nat) :
    (cleanText v k).length = v.length + k := by
  simp [cleanText]

@[simp] theorem cleanText_zero (v : List Sym) : cleanText v 0 = v.map encRom := by simp [cleanText]

theorem cleanText_cons (s : Sym) (v : List Sym) (k : Nat) :
    cleanText (s :: v) k = encRom s :: cleanText v k := rfl

theorem cleanText_append_symbols (u v : List Sym) (k : Nat) :
    cleanText (u ++ v) k = u.map encRom ++ cleanText v k := by
  simp [cleanText]

theorem cleanText_append_pads (v : List Sym) (k m : Nat) :
    cleanText v k ++ List.replicate m pad = cleanText v (k + m) := by
  simp [cleanText]

/-- The first characters of a clean text, while they are data symbols. -/
theorem cleanText_take {v : List Sym} {j : Nat} (k : Nat) (h : j ≤ v.length) :
    (cleanText v k).take j = (v.take j).map encRom := by
  rw [cleanText, List.take_append_of_le_length (by simpa using h), List.map_take]

/-- What follows data symbols in a clean text is a clean text. -/
theorem cleanText_drop {v : List Sym} {j : Nat} (k : Nat) (h : j ≤ v.length) :
    (cleanText v k).drop j = cleanText (v.drop j) k := by
  rw [cleanText, cleanText, List.drop_append_of_le_length (by simpa using h), List.map_drop]

theorem count_pad_symbols (v : List Sym) : (v.map encRom).count pad = 0 := by
  rw [List.count_eq_zero, List.mem_map]
  rintro ⟨s, -, hs⟩
  exact encRom_ne_pad s hs

@[simp] theorem count_pad_cleanText (v : List Sym) (k : Nat) : (cleanText v k).count pad = k := by
  simp [cleanText, count_pad_symbols]

/-- The number of pads of a clean text is determined by the text. -/
theorem cleanText_pads_eq {u v : List Sym} {j k : Nat} (h : cleanText u j = cleanText v k) :
    j = k := by
  rw [← count_pad_cleanText u j, h, count_pad_cleanText]

/-! ### The walk over one block -/

theorem decRom_pad : decRom pad = .padding := (decRom_eq_padding_iff pad).2 rfl

/-- The walk takes up data symbols one by one (R91). -/
theorem walkBlock_symbols (final : Bool) (vals v : List Sym) (cs : List Byte) :
    walkBlock final vals false (v.map encRom ++ cs) = walkBlock final (vals ++ v) false cs := by
  induction v generalizing vals with
  | nil => simp
  | cons s v ih => simp [walkBlock, ih]

/-- Once a pad of the final block has been accepted, every later one is (R91). -/
theorem walkBlock_pads (vals : List Sym) (k : Nat) :
    walkBlock true vals true (List.replicate k pad) = .ok vals := by
  induction k with
  | zero => rfl
  | succ k ih => simp [List.replicate_succ, walkBlock, decRom_pad, ih]

/-- Where the run of pads of an accepted block may begin: nowhere, or in the final block after 2,
4, 5 or 7 data symbols (R91). -/
def PadsMayFollow (final : Bool) (d k : Nat) : Prop := k = 0 ∨ final = true ∧ d ∈ [2, 4, 5, 7]

theorem walkBlock_cleanText {final : Bool} {v : List Sym} {k : Nat}
    (h : PadsMayFollow final v.length k) : walkBlock final [] false (cleanText v k) = .ok v := by
  rw [cleanText, walkBlock_symbols, List.nil_append]
  rcases h with rfl | ⟨rfl, hd⟩
  · rfl
  · cases k with
    | zero => rfl
    | succ k => simp only [List.replicate_succ, walkBlock, decRom_pad, hd, walkBlock_pads]; simp

/-- The characters of a block from any point of the walk on, if the walk accepts them: data
symbols and then pads, and pads alone once one has been seen. -/
theorem cleanText_of_walkBlock {final : Bool} {vals w : List Sym} {seen : Bool} {cs : List Byte}
    (h : walkBlock final vals seen cs = .ok w) :
    ∃ u k, cs = cleanText u k ∧ w = vals ++ u ∧ (seen = true → u = []) ∧
      (seen = false → PadsMayFollow final w.length k) := by
  induction cs generalizing vals seen with
  | nil =>
    cases h
    exact ⟨[], 0, rfl, (List.append_nil _).symm, fun _ => rfl, fun _ => .inl rfl⟩
  | cons c cs ih =>
    cases hc : decRom c with
    | invalid => simp [walkBlock, hc] at h
    | padding =>
      have hpads {u : List Sym} {k : Nat} (hu : u = []) (hcs : cs = cleanText u k) :
          c :: cs = cleanText [] (k + 1) := by
        subst hu hcs
        rw [(decRom_eq_padding_iff c).1 hc]
        rfl
      cases final with
      | false => simp [walkBlock, hc] at h
      | true =>
        by_cases hseen : seen = true ∨ vals.length ∈ [2, 4, 5, 7]
        · have h : walkBlock true vals true cs = .ok w := by
            cases seen <;> simp_all [walkBlock]
          obtain ⟨u, k, hcs, rfl, hu, -⟩ := ih h
          refine ⟨[], k + 1, hpads (hu rfl) hcs, by rw [hu rfl], fun _ => rfl, ?_⟩
          rintro rfl
          exact .inr ⟨rfl, by simpa [hu rfl] using hseen⟩
        · rw [not_or] at hseen
          simp [walkBlock, hc, hseen] at h
    | value s =>
      cases seen with
      | true => simp [walkBlock, hc] at h
      | false =>
        simp only [walkBlock, hc] at h
        obtain ⟨u, k, rfl, rfl, -, hk⟩ := ih h
        refine ⟨s :: u, k, ?_, by simp, nofun, hk⟩
        rw [cleanText_cons, encRom_of_decRom hc]

/-- `UNPACK` accepts exactly the blocks of data symbols and then pads, by the place where the pads
begin (R91). -/
theorem walkBlock_eq_ok_iff {final : Bool} {v : List Sym} {cs : List Byte} :
    walkBlock final [] false cs = .ok v ↔
      ∃ k, cs = cleanText v k ∧ PadsMayFollow final v.length k := by
  constructor
  · intro h
    obtain ⟨u, k, hcs, rfl, -, hk⟩ := cleanText_of_walkBlock h
    exact ⟨k, hcs, hk rfl⟩
  · rintro ⟨k, rfl, hk⟩
    exact walkBlock_cleanText hk

/-! ### The bytes that symbol values hold -/

/-- The bytes `r` are what the symbol values `v` hold: as many as there are whole ones, with the
bits of the values in order (R92). -/
def HoldsBytes (v : List Sym) (r : List Byte) : Prop :=
  r.length = 5 * v.length / 8 ∧ bitsOfBytes r <+: bitsOfSyms v

theorem bitsOfSyms_length (v : List Sym) : (bitsOfSyms v).length = 5 * v.length := by
  simp [bitsOfSyms_eq_flatMap, List.length_flatMap, Nat.mul_comm]

theorem bitsOfBytes_cons (b : Byte) (x : List Byte) :
    bitsOfBytes (b :: x) = bitsOf b ++ bitsOfBytes x := List.flatMap_cons

/-- A byte sequence is its row of bits. -/
theorem eq_of_bitsOfBytes_eq {x y : List Byte} (hlen : x.length = y.length)
    (h : bitsOfBytes x = bitsOfBytes y) : x = y := by
  induction x generalizing y with
  | nil => exact (List.eq_nil_of_length_eq_zero hlen.symm).symm
  | cons b x ih =>
    cases y with
    | nil => cases hlen
    | cons c y =>
      rw [bitsOfBytes_cons, bitsOfBytes_cons] at h
      obtain ⟨hb, hx⟩ := List.append_inj h (by simp)
      rw [eq_of_bitsOf_eq hb, ih (Nat.succ.inj hlen) hx]

/-- Symbol values hold one byte sequence. -/
theorem HoldsBytes.unique {v : List Sym} {x y : List Byte} (hx : HoldsBytes v x)
    (hy : HoldsBytes v y) : x = y := by
  have hlen : x.length = y.length := hx.1.trans hy.1.symm
  refine eq_of_bitsOfBytes_eq hlen ?_
  have hbits : (bitsOfBytes x).length = (bitsOfBytes y).length := by
    rw [bitsOfBytes_length, bitsOfBytes_length, hlen]
  exact (List.prefix_of_prefix_length_le hx.2 hy.2 hbits.le).eq_of_length hbits

/-- The data symbols of an encoding hold the bytes that were encoded. -/
theorem CarriesBits.holdsBytes {x : List Byte} {v : List Sym} (h : CarriesBits x v) :
    HoldsBytes v x := by
  obtain ⟨hlen, hbits⟩ := h
  exact ⟨by omega, hbits ▸ List.prefix_append _ _⟩

/-- A whole block in front brings its five bytes. -/
theorem HoldsBytes.block_append {u v : List Sym} {x y : List Byte} (hu : u.length = 8)
    (hx : HoldsBytes u x) (hy : HoldsBytes v y) : HoldsBytes (u ++ v) (x ++ y) := by
  obtain ⟨hxlen, hxbits⟩ := hx
  obtain ⟨hylen, hybits⟩ := hy
  have hwhole : bitsOfBytes x = bitsOfSyms u :=
    hxbits.eq_of_length (by rw [bitsOfBytes_length, bitsOfSyms_length]; omega)
  refine ⟨by simp only [List.length_append]; omega, ?_⟩
  rw [bitsOfBytes_append, bitsOfSyms_append, hwhole]
  exact (List.prefix_append_right_inj _).2 hybits

/-- Zeros for missing symbol values make no difference to the accumulator (R92). -/
theorem accOfSyms_append_zeros (v : List Sym) (n : Nat) :
    accOfSyms (v ++ List.replicate n 0#5) = accOfSyms v := by
  have hget (i : Nat) : (v ++ List.replicate n 0#5).getD i 0#5 = v.getD i 0#5 := by
    rcases Nat.lt_or_ge i v.length with hi | hi
    · rw [List.getD_append _ _ _ _ hi]
    · rw [List.getD_append_right _ _ _ _ hi, List.getD_eq_default _ _ hi,
        List.getD_eq_getElem?_getD, List.getElem?_getD_replicate_default_eq]
  simp only [accOfSyms, hget]

theorem bitsOf_accOfSyms_of_length {v : List Sym} (h : v.length = 8) :
    bitsOf (accOfSyms v) = bitsOfSyms v := by
  match v, h with
  | [s0, s1, s2, s3, s4, s5, s6, s7], _ => exact bitsOf_accOfSyms s0 s1 s2 s3 s4 s5 s6 s7

theorem bitsOfSyms_replicate_zero (n : Nat) :
    bitsOfSyms (List.replicate n 0#5) = List.replicate (5 * n) false := by
  rw [bitsOfSyms_eq_flatMap, List.flatMap_replicate, bitsOf_zero, List.flatten_replicate_replicate,
    Nat.mul_comm]

/-- The accumulator of a block holds the bits of its symbol values, then zeros (R92). -/
theorem bitsOf_accOfSyms_of_le {v : List Sym} (h : v.length ≤ 8) :
    bitsOf (accOfSyms v) = bitsOfSyms v ++ List.replicate (5 * (8 - v.length)) false := by
  have hfull : (v ++ List.replicate (8 - v.length) 0#5).length = 8 := by simp; omega
  rw [← accOfSyms_append_zeros v (8 - v.length), bitsOf_accOfSyms_of_length hfull,
    bitsOfSyms_append, bitsOfSyms_replicate_zero]

/-- The five bytes of an accumulator carry exactly its bits (R49). -/
theorem bitsOfBytes_groupBytes (acc : Acc) :
    bitsOfBytes ([0, 1, 2, 3, 4].map (byteAt acc)) = bitsOf acc := by
  have hbytes : bitsOfBytes ([0, 1, 2, 3, 4].map (byteAt acc)) =
      [0, 1, 2, 3, 4].flatMap fun k => ((bitsOf acc).drop (8 * k)).take 8 := by
    simp [bitsOfBytes_eq_flatMap, bitsOf_byteAt]
  rw [hbytes]
  rfl

/-- The first `m` bytes carry the first `8m` bits. -/
theorem bitsOfBytes_take_prefix (m : Nat) (x : List Byte) :
    bitsOfBytes (x.take m) <+: bitsOfBytes x := by
  rw [← List.take_append_drop m x, bitsOfBytes_append, List.take_append_drop]
  exact List.prefix_append _ _

/-- A block emits the bytes that its data symbols hold (R92). -/
theorem holdsBytes_blockBytes {v : List Sym} (h : v.length ≤ 8) : HoldsBytes v (blockBytes v) := by
  have hlen : (blockBytes v).length = 5 * v.length / 8 := blockBytes_length h
  refine ⟨hlen, ?_⟩
  have hbytes : bitsOfBytes (blockBytes v) <+: bitsOf (accOfSyms v) := by
    rw [← bitsOfBytes_groupBytes]
    exact bitsOfBytes_take_prefix _ _
  have hsyms : bitsOfSyms v <+: bitsOf (accOfSyms v) := by
    rw [bitsOf_accOfSyms_of_le h]
    exact List.prefix_append _ _
  refine List.prefix_of_prefix_length_le hbytes hsyms ?_
  rw [bitsOfBytes_length, bitsOfSyms_length, hlen]
  omega

/-! ### `UNPACK` -/

/-- `UNPACK` of a clean text whose run of pads is one of a tail's gives the bytes that the data
symbols hold. -/
theorem unpackBlocks_cleanText {nb k : Nat} {v : List Sym} (hk : k ∈ [0, 1, 3, 4, 6])
    (hlen : v.length + k = 8 * nb) :
    ∃ r, unpackBlocks nb (cleanText v k) = .ok r ∧ HoldsBytes v r := by
  have hk6 : k ≤ 6 := by simp at hk; omega
  induction nb generalizing v with
  | zero =>
    obtain rfl := List.eq_nil_of_length_eq_zero (by omega : v.length = 0)
    exact ⟨[], rfl, rfl, List.prefix_rfl⟩
  | succ nb ih =>
    cases nb with
    | zero =>
      have hwalk : walkBlock true [] false ((cleanText v k).take 8) = .ok v := by
        rw [List.take_of_length_le (by simp; omega)]
        refine walkBlock_cleanText ?_
        simp [PadsMayFollow] at hk ⊢
        omega
      refine ⟨blockBytes v, by simp [unpackBlocks, hwalk], holdsBytes_blockBytes (by omega)⟩
    | succ nb =>
      have hv : 8 ≤ v.length := by omega
      have hblock : (v.take 8).length = 8 := by simpa using hv
      obtain ⟨r, hr, hbytes⟩ := ih (v := v.drop 8) (by simp; omega)
      have hwalk : walkBlock false [] false ((cleanText v k).take 8) = .ok (v.take 8) := by
        rw [cleanText_take k hv, ← cleanText_zero]
        exact walkBlock_cleanText (.inl rfl)
      refine ⟨blockBytes (v.take 8) ++ r, ?_, ?_⟩
      · rw [← cleanText_drop k hv] at hr
        rw [unpackBlocks]
        simp [hwalk, hr]
      · have := (holdsBytes_blockBytes hblock.le).block_append hblock hbytes
        rwa [List.take_append_drop] at this

/-- Every text that `UNPACK` accepts is clean, and its run of pads is one of a tail's (R91). -/
theorem cleanText_of_unpackBlocks {nb : Nat} {t r : List Byte} (hlen : t.length = 8 * nb)
    (h : unpackBlocks nb t = .ok r) : ∃ v k, k ∈ [0, 1, 3, 4, 6] ∧ t = cleanText v k := by
  induction nb generalizing t r with
  | zero => exact ⟨[], 0, by simp, List.eq_nil_of_length_eq_zero hlen⟩
  | succ nb ih =>
    obtain ⟨u, x, hwalk, hrest, -⟩ := unpackBlocks_succ_ok h
    obtain ⟨j, hblock, hpads⟩ := walkBlock_eq_ok_iff.1 hwalk
    have hu : u.length + j = 8 := by
      rw [← cleanText_length, ← hblock, List.length_take]
      omega
    rcases hpads with rfl | ⟨hfinal, hd⟩
    · obtain ⟨v, k, hk, hdrop⟩ := ih (by simp; omega) hrest
      refine ⟨u ++ v, k, hk, ?_⟩
      rw [cleanText_append_symbols, ← hdrop, ← cleanText_zero, ← hblock, List.take_append_drop]
    · obtain rfl : nb = 0 := by simpa using hfinal
      refine ⟨u, j, by simp at hd ⊢; omega, ?_⟩
      rw [← hblock, List.take_of_length_le (by omega)]

end Sys2Proof.Machine
end

section
/-! PROOFS. Which character of a text decides the error kind of `UNPACK` (O60). -/

namespace Sys2Proof.Machine

open Sys2Proof.Reference

/-! ### The fault of one character -/

/-- The error kind of a routine that fails. -/
def errorOf {α : Type} : Except ErrorKind α → Option ErrorKind
  | .ok _ => none
  | .error k => some k

theorem errorOf_eq_some_iff {α : Type} {e : Except ErrorKind α} {k : ErrorKind} :
    errorOf e = some k ↔ e = .error k := by
  cases e <;> simp [errorOf]

theorem errorOf_eq_none_iff {α : Type} {e : Except ErrorKind α} :
    errorOf e = none ↔ ∃ r, e = .ok r := by
  cases e <;> simp [errorOf]

/-- Which of the four cases of R91 the walk meets at a character `c`, when it has accepted `d` data
symbols of the block and has seen a pad of it or not. -/
def charFault (final seen : Bool) (d : Nat) (c : Byte) : Option ErrorKind :=
  match decRom c with
  | .invalid => some .invalidCharacter
  | .padding =>
    if final = false ∨ seen = false ∧ d ∉ [2, 4, 5, 7] then some .invalidPadding else none
  | .value _ => if seen then some .invalidPadding else none

theorem charFault_of_invalid {c : Byte} (h : decRom c = .invalid) (final seen : Bool) (d : Nat) :
    charFault final seen d c = some .invalidCharacter := by
  simp [charFault, h]

theorem charFault_of_padding {c : Byte} (h : decRom c = .padding) (final seen : Bool) (d : Nat) :
    charFault final seen d c =
      if final = false ∨ seen = false ∧ d ∉ [2, 4, 5, 7] then some .invalidPadding else none := by
  rw [charFault, h]

theorem charFault_of_value {c : Byte} {v : Sym} (h : decRom c = .value v) (final seen : Bool)
    (d : Nat) : charFault final seen d c = if seen then some .invalidPadding else none := by
  rw [charFault, h]

/-- After a pad, the number of data symbols no longer matters. -/
theorem charFault_congr {final seen : Bool} {d e : Nat} (h : seen = false → d = e) (c : Byte) :
    charFault final seen d c = charFault final seen e c := by
  cases seen with
  | false => rw [h rfl]
  | true => simp [charFault]

/-- The four cases of R91. -/
theorem charFault_eq_some {final seen : Bool} {d : Nat} {c : Byte} {k : ErrorKind}
    (h : charFault final seen d c = some k) :
    decRom c = .invalid ∧ k = .invalidCharacter ∨
      decRom c = .padding ∧ final = false ∧ k = .invalidPadding ∨
      decRom c = .padding ∧ (seen = false ∧ d ∉ [2, 4, 5, 7]) ∧ k = .invalidPadding ∨
      (∃ v, decRom c = .value v) ∧ seen = true ∧ k = .invalidPadding := by
  cases hc : decRom c with
  | invalid =>
    rw [charFault_of_invalid hc] at h
    exact .inl ⟨rfl, (Option.some.inj h).symm⟩
  | padding =>
    rw [charFault_of_padding hc, Option.ite_none_right_eq_some] at h
    obtain ⟨hfinal | hfirst, hk⟩ := h
    · exact .inr (.inl ⟨rfl, hfinal, (Option.some.inj hk).symm⟩)
    · exact .inr (.inr (.inl ⟨rfl, hfirst, (Option.some.inj hk).symm⟩))
  | value v =>
    rw [charFault_of_value hc, Option.ite_none_right_eq_some] at h
    exact .inr (.inr (.inr ⟨⟨v, rfl⟩, h.1, (Option.some.inj h.2).symm⟩))

/-- The faults of R91 are of two kinds, and one is that of an invalid character. -/
theorem charFault_kind {final seen : Bool} {d : Nat} {c : Byte} {k : ErrorKind}
    (h : charFault final seen d c = some k) :
    k = .invalidPadding ∨ k = .invalidCharacter ∧ decRom c = .invalid := by
  rcases charFault_eq_some h with ⟨hc, hk⟩ | ⟨-, -, hk⟩ | ⟨-, -, hk⟩ | ⟨-, -, hk⟩
  · exact .inr ⟨hk, hc⟩
  all_goals exact .inl hk

/-- The data symbols of a block after one more character of it. -/
def takeUp (vals : List Sym) (c : Byte) : List Sym :=
  match decRom c with
  | .invalid => vals
  | .padding => vals
  | .value v => vals ++ [v]

theorem takeUp_pad (vals : List Sym) : takeUp vals pad = vals := by
  simp [takeUp, decRom_pad]

theorem takeUp_of_value {c : Byte} {v : Sym} (h : decRom c = .value v) (vals : List Sym) :
    takeUp vals c = vals ++ [v] := by
  simp [takeUp, h]

/-- A character without a fault is a data symbol, before which no pad stands, or a pad. -/
theorem charFault_eq_none {final seen : Bool} {d : Nat} {c : Byte}
    (h : charFault final seen d c = none) :
    (∃ v, decRom c = .value v ∧ seen = false) ∨
      c = pad ∧ final = true ∧ (seen = true ∨ d ∈ [2, 4, 5, 7]) := by
  cases hc : decRom c with
  | invalid => simp [charFault_of_invalid hc] at h
  | padding =>
    rw [charFault_of_padding hc, ite_eq_right_iff] at h
    have hno : ¬(final = false ∨ seen = false ∧ d ∉ [2, 4, 5, 7]) := fun hd => nomatch h hd
    rw [not_or, not_and_or, Bool.not_eq_false, Bool.not_eq_false, not_not] at hno
    exact .inr ⟨(decRom_eq_padding_iff c).1 hc, hno⟩
  | value v =>
    rw [charFault_of_value hc] at h
    exact .inl ⟨v, rfl, by simpa using h⟩

theorem ne_pad_of_decRom {c : Byte} {v : Sym} (h : decRom c = .value v) : c ≠ pad := by
  rw [← encRom_of_decRom h]
  exact encRom_ne_pad v

/-- The walk ends at the first fault (R91). -/
theorem walkBlock_cons_of_fault {final seen : Bool} {vals : List Sym} {c : Byte} {k : ErrorKind}
    (h : charFault final seen vals.length c = some k) (cs : List Byte) :
    walkBlock final vals seen (c :: cs) = .error k := by
  rcases charFault_eq_some h with
    ⟨hc, rfl⟩ | ⟨hc, rfl, rfl⟩ | ⟨hc, ⟨rfl, hd⟩, rfl⟩ | ⟨⟨v, hc⟩, rfl, rfl⟩
  · simp [walkBlock, hc]
  · simp [walkBlock, hc]
  · cases final with
    | false => simp [walkBlock, hc]
    | true =>
      simp only [walkBlock, hc, hd]
      simp
  · simp [walkBlock, hc]

/-- The walk goes on after a character without a fault (R91). -/
theorem walkBlock_cons_of_accept {final seen : Bool} {vals : List Sym} {c : Byte}
    (h : charFault final seen vals.length c = none) (cs : List Byte) :
    walkBlock final vals seen (c :: cs) =
      walkBlock final (takeUp vals c) (seen || c == pad) cs := by
  rcases charFault_eq_none h with ⟨v, hc, rfl⟩ | ⟨rfl, rfl, hd⟩
  · have hne : (c == pad) = false := beq_eq_false_iff_ne.2 (ne_pad_of_decRom hc)
    simp [walkBlock, hc, takeUp_of_value hc, hne]
  · cases seen with
    | true => simp [walkBlock, decRom_pad, takeUp_pad]
    | false =>
      have hd : vals.length ∈ [2, 4, 5, 7] := by simpa using hd
      simp only [walkBlock, decRom_pad, takeUp_pad, hd]
      simp

/-! ### The first fault of a text -/

/-- Whether a pad of the final block stands before index `i`. -/
def seenBefore (n : List Byte) (i : Nat) : Bool := decide (pad ∈ (n.take i).drop (n.length - 8))

theorem seenBefore_iff {n : List Byte} {i : Nat} :
    seenBefore n i = true ↔ 0x3D#8 ∈ (n.take i).drop (n.length - 8) := decide_eq_true_iff

theorem seenBefore_of_le {n : List Byte} {i : Nat} (h : i ≤ n.length - 8) :
    seenBefore n i = false := by
  have hnil : (n.take i).drop (n.length - 8) = [] := List.drop_eq_nil_of_le (by simp; omega)
  rw [seenBefore, hnil]
  rfl

theorem seenBefore_succ {n : List Byte} {i : Nat} (hlo : n.length - 8 ≤ i) (hi : i < n.length) :
    seenBefore n (i + 1) = (seenBefore n i || n[i] == pad) := by
  have hlen : n.length - 8 ≤ (n.take i).length := by simp; omega
  rw [seenBefore, seenBefore, List.take_succ_eq_append_getElem hi,
    List.drop_append_of_le_length hlen, Bool.eq_iff_iff]
  simp only [List.mem_append, List.mem_singleton, decide_eq_true_eq, Bool.or_eq_true, beq_iff_eq,
    eq_comm (a := pad)]

/-- The fault at an index is that of the walk there (R91). -/
theorem faultAt_eq_charFault {n : List Byte} {i : Nat} (hi : i < n.length) :
    faultAt n i = charFault (decide (n.length - 8 ≤ i)) (seenBefore n i) (i % 8) n[i] := by
  rw [faultAt, List.getD_eq_getElem _ _ hi]
  cases hc : decRom n[i] with
  | invalid => rw [charFault_of_invalid hc]
  | padding =>
    rw [charFault_of_padding hc]
    by_cases hlo : i < n.length - 8
    · have : ¬ n.length - 8 ≤ i := by omega
      simp [hlo, this]
    · have : n.length - 8 ≤ i := by omega
      simp [hlo, this, ← Bool.not_eq_true, seenBefore_iff]
  | value v =>
    rw [charFault_of_value hc]
    simp [seenBefore_iff]

/-- The walk over the last `m` characters of block `b`, from position `p` on, fails with the first
fault at these indices. -/
theorem errorOf_walkBlock {n : List Byte} {vals : List Sym} {final : Bool} {nb b p m : Nat}
    (hn : n.length = 8 * nb) (hb : b < nb) (hfinal : final = decide (b + 1 = nb)) (hp : p + m = 8)
    (hvals : seenBefore n (8 * b + p) = false → vals.length = p) :
    errorOf (walkBlock final vals (seenBefore n (8 * b + p)) ((n.drop (8 * b + p)).take m)) =
      (List.range' (8 * b + p) m).findSome? (faultAt n) := by
  induction m generalizing vals p with
  | zero => simp [walkBlock, errorOf]
  | succ m ih =>
    have hi : 8 * b + p < n.length := by omega
    have hlast : decide (n.length - 8 ≤ 8 * b + p) = final := by
      rw [hfinal, decide_eq_decide]
      omega
    have hpos : (8 * b + p) % 8 = p := by omega
    have hfault : faultAt n (8 * b + p) =
        charFault final (seenBefore n (8 * b + p)) vals.length n[8 * b + p] := by
      rw [faultAt_eq_charFault hi, hlast, hpos, charFault_congr hvals]
    rw [List.drop_eq_getElem_cons hi, List.take_succ_cons, List.range'_succ, List.findSome?_cons,
      hfault]
    cases hc : charFault final (seenBefore n (8 * b + p)) vals.length n[8 * b + p] with
    | some k => rw [walkBlock_cons_of_fault hc]; rfl
    | none =>
      have hseen : seenBefore n (8 * b + (p + 1)) =
          (seenBefore n (8 * b + p) || n[8 * b + p] == pad) := by
        cases final with
        | true =>
          exact seenBefore_succ (by simpa using hlast) hi
        | false =>
          have hlo : ¬ n.length - 8 ≤ 8 * b + p := by simpa using hlast
          rw [seenBefore_of_le (by omega), seenBefore_of_le (by omega)]
          rcases charFault_eq_none hc with ⟨v, hv, -⟩ | ⟨-, h, -⟩
          · simpa using ne_pad_of_decRom hv
          · cases h
      rw [walkBlock_cons_of_accept hc, ← hseen]
      refine ih (by omega) fun hnot => ?_
      rw [hseen, Bool.or_eq_false_iff, beq_eq_false_iff_ne] at hnot
      obtain ⟨hbefore, hne⟩ := hnot
      rcases charFault_eq_none hc with ⟨v, hv, -⟩ | ⟨h, -⟩
      · rw [takeUp_of_value hv, List.length_append, hvals hbefore]
        rfl
      · exact absurd h hne

/-- `UNPACK` of the last `m` blocks fails with the first fault at their indices. -/
theorem errorOf_unpackBlocks {n : List Byte} {nb b m : Nat} (hn : n.length = 8 * nb)
    (hb : b + m = nb) :
    errorOf (unpackBlocks m (n.drop (8 * b))) =
      (List.range' (8 * b) (8 * m)).findSome? (faultAt n) := by
  induction m generalizing b with
  | zero => rfl
  | succ m ih =>
    have hwalk : errorOf (walkBlock (m == 0) [] false ((n.drop (8 * b)).take 8)) =
        (List.range' (8 * b) 8).findSome? (faultAt n) := by
      have hseen : seenBefore n (8 * b + 0) = false := seenBefore_of_le (by omega)
      rw [← hseen]
      refine errorOf_walkBlock (b := b) (p := 0) hn (by omega) ?_ rfl fun _ => rfl
      rw [Bool.eq_iff_iff]
      simp
      omega
    have hrest := ih (b := b + 1) (by omega)
    rw [Nat.mul_succ, ← List.drop_drop] at hrest
    rw [Nat.mul_succ, Nat.add_comm (8 * m), ← List.range'_append_1, List.findSome?_append,
      ← hwalk, ← hrest, unpackBlocks]
    cases walkBlock (m == 0) [] false ((n.drop (8 * b)).take 8) with
    | error k => rfl
    | ok v => cases unpackBlocks m ((n.drop (8 * b)).drop 8) <;> rfl

/-- `UNPACK` fails with its first fault, and succeeds when there is none (R91, R94). -/
theorem errorOf_unpack {n : List Byte} (hn : n.length % 8 = 0) :
    errorOf (unpack n) = (List.range n.length).findSome? (faultAt n) := by
  have hlen : n.length = 8 * (n.length / 8) := by omega
  have := errorOf_unpackBlocks (b := 0) hlen (Nat.zero_add _)
  rwa [Nat.mul_zero, List.drop_zero, ← hlen, ← List.range_eq_range'] at this

/-- What the first index with a value gives, over the indices below `m`. -/
theorem findSome?_range_eq_some_iff {α : Type} {f : Nat → Option α} {m : Nat} {a : α} :
    (List.range m).findSome? f = some a ↔
      ∃ i, i < m ∧ f i = some a ∧ ∀ j, j < i → f j = none := by
  induction m with
  | zero => simp
  | succ m ih =>
    rw [List.range_succ, List.findSome?_append, Option.or_eq_some_iff, ih,
      List.findSome?_eq_none_iff]
    simp only [List.mem_range, List.findSome?_singleton]
    constructor
    · rintro (⟨i, hi, h⟩ | ⟨hbefore, hm⟩)
      · exact ⟨i, by omega, h⟩
      · exact ⟨m, by omega, hm, hbefore⟩
    · rintro ⟨i, hi, h, hbefore⟩
      rcases Nat.lt_succ_iff_lt_or_eq.1 hi with hlt | rfl
      · exact .inl ⟨i, hlt, h, hbefore⟩
      · exact .inr ⟨hbefore, h⟩

/-- Settles O60: the walks over the blocks look at the characters in index order. -/
theorem firstFaultDecidesUnpack : Obligations.FirstFaultDecidesUnpack := by
  intro n _ hn
  refine ⟨fun k => ?_, ?_⟩
  · rw [← errorOf_eq_some_iff, errorOf_unpack hn, findSome?_range_eq_some_iff]
  · rw [← errorOf_eq_none_iff, errorOf_unpack hn, List.findSome?_eq_none_iff]
    simp only [List.mem_range]

end Sys2Proof.Machine
end

section
/-! PROOFS. `UNPACK` as the two loops of R94, with the accumulator written field by field (O22). -/

namespace Sys2Proof.Machine

open Sys2Proof.Reference

/-! ### The accumulator, field by field -/

/-- Writing symbol field `i` replaces the bits of that field alone (R50, R94). -/
theorem getLsbD_setSym (acc : Acc) (i : Nat) (v : Sym) {m : Nat} (hm : m < 40) :
    (setSym acc i v).getLsbD m =
      if 35 - 5 * i ≤ m ∧ m < 35 - 5 * i + 5 then v.getLsbD (m - (35 - 5 * i))
      else acc.getLsbD m := by
  have hones (k : Nat) : (31#40).getLsbD k = decide (k < 5) := by
    have hnat : Nat.testBit 31 k = decide (k < 5) := Nat.testBit_two_pow_sub_one 5 k
    rw [BitVec.getLsbD_ofNat, hnat, Bool.and_eq_right_iff_imp, decide_eq_true_iff,
      decide_eq_true_iff]
    omega
  simp only [setSym, BitVec.getLsbD_or, BitVec.getLsbD_and, BitVec.getLsbD_not,
    BitVec.getLsbD_shiftLeft, BitVec.getLsbD_setWidth, hones, hm]
  rcases Nat.lt_or_ge m (35 - 5 * i) with hlo | hlo
  · simp [hlo, Nat.not_le.2 hlo]
  · rcases Nat.lt_or_ge m (35 - 5 * i + 5) with hhi | hhi
    · have hin : m - (35 - 5 * i) < 5 := by omega
      have hin' : m - (35 - 5 * i) < 40 := by omega
      simp [hlo, hhi, hin, hin', Nat.not_lt.2 hlo]
    · have hout : ¬ m - (35 - 5 * i) < 5 := by omega
      rw [BitVec.getLsbD_of_ge v _ (Nat.not_lt.1 hout)]
      simp [hout, Nat.not_lt.2 hhi]

theorem bitsOf_getElem {n : Nat} (w : BitVec n) {j : Nat} (h : j < (bitsOf w).length) :
    (bitsOf w)[j] = w.getMsbD j := by
  simp [bitsOf]

/-- Writing symbol field `i` replaces the five bits from position `5i` on. -/
theorem bitsOf_setSym (acc : Acc) {i : Nat} (hi : i < 8) (v : Sym) :
    bitsOf (setSym acc i v) =
      (bitsOf acc).take (5 * i) ++ (bitsOf v ++ (bitsOf acc).drop (5 * i + 5)) := by
  have htake : ((bitsOf acc).take (5 * i)).length = 5 * i := by simp; omega
  apply List.ext_getElem
  · simp; omega
  · intro j hj _
    have hj : j < 40 := by simpa using hj
    have hlast (w : Acc) : w.getMsbD j = w.getLsbD (39 - j) := by simp [BitVec.getMsbD, hj]
    rw [bitsOf_getElem, hlast, getLsbD_setSym acc i v (by omega)]
    rcases Nat.lt_or_ge j (5 * i) with hlo | hlo
    · rw [List.getElem_append_left (by omega), List.getElem_take, bitsOf_getElem, hlast,
        if_neg (by omega)]
    · rw [List.getElem_append_right (by omega)]
      rcases Nat.lt_or_ge j (5 * i + 5) with hhi | hhi
      · have hpos : j - 5 * i < 5 := by omega
        have hbit : 39 - j - (35 - 5 * i) = 4 - (j - 5 * i) := by omega
        rw [List.getElem_append_left (by simp; omega), bitsOf_getElem, htake, if_pos (by omega),
          hbit]
        simp [BitVec.getMsbD, hpos]
      · have hpos : 5 * i + 5 + (j - 5 * i - 5) = j := by omega
        rw [List.getElem_append_right (by simp; omega), List.getElem_drop, bitsOf_getElem,
          bitsOf_length, htake, hpos, hlast, if_neg (by omega)]

/-- Writing the field behind the values so far takes up one more value (R94). -/
theorem setSym_accOfSyms {vals : List Sym} (h : vals.length < 8) (v : Sym) :
    setSym (accOfSyms vals) vals.length v = accOfSyms (vals ++ [v]) := by
  have hlen : (vals ++ [v]).length = vals.length + 1 := by simp
  have hrest : 5 * (8 - vals.length) - 5 = 5 * (8 - (vals.length + 1)) := by omega
  apply eq_of_bitsOf_eq
  rw [bitsOf_setSym _ h, bitsOf_accOfSyms_of_le h.le, bitsOf_accOfSyms_of_le (by omega),
    bitsOfSyms_append, hlen, List.take_left' (bitsOfSyms_length vals), ← List.drop_drop,
    List.drop_left' (bitsOfSyms_length vals), List.drop_replicate, hrest]
  simp [bitsOfSyms_eq_flatMap]

/-! ### The inner loop -/

/-- The variables of the inner loop of R94 at position `i` are those of a walk with these values
and this sight of a pad. -/
structure Tracks (l : Loop) (i : Nat) (vals : List Sym) (seen : Bool) : Prop where
  acc_eq : l.acc = accOfSyms vals
  seen_eq : l.seen = seen
  d_eq : l.d = if seen then vals.length else 8
  length_eq : seen = false → vals.length = i

/-- The loop ends at the first fault (R91). -/
theorem loopBody_of_fault {final : Bool} {i : Nat} {c : Byte} {l : Loop} {k : ErrorKind}
    (h : charFault final l.seen i c = some k) : loopBody final i c l = .error k := by
  rcases charFault_eq_some h with
    ⟨hc, rfl⟩ | ⟨hc, rfl, rfl⟩ | ⟨hc, ⟨hs, hd⟩, rfl⟩ | ⟨⟨v, hc⟩, hs, rfl⟩
  · simp [loopBody, hc]
  · simp [loopBody, hc]
  · have hd : ¬(i = 2 ∨ i = 4 ∨ i = 5 ∨ i = 7) := by simpa using hd
    simp [loopBody, hc, hs, hd]
  · simp [loopBody, hc, hs]

/-- A character without a fault keeps the loop in step with the walk. -/
theorem Tracks.loopBody_accept {final : Bool} {i : Nat} {c : Byte} {l : Loop} {vals : List Sym}
    {seen : Bool} (hl : Tracks l i vals seen) (hi : i < 8)
    (h : charFault final seen vals.length c = none) :
    ∃ l', loopBody final i c l = .ok l' ∧ Tracks l' (i + 1) (takeUp vals c) (seen || c == pad) := by
  obtain ⟨hacc, rfl, hcount, hpos⟩ := hl
  rcases charFault_eq_none h with ⟨v, hc, hs⟩ | ⟨rfl, rfl, hd⟩
  · have hne : (c == pad) = false := beq_eq_false_iff_ne.2 (ne_pad_of_decRom hc)
    obtain rfl := hpos hs
    refine ⟨{ l with acc := setSym l.acc vals.length v }, by simp [loopBody, hc, hs], ?_⟩
    rw [takeUp_of_value hc, hne, Bool.or_false]
    exact ⟨by rw [hacc, setSym_accOfSyms hi], rfl, by simpa [hs] using hcount, fun _ => by simp⟩
  · rw [takeUp_pad, beq_self_eq_true, Bool.or_true]
    cases hs : l.seen with
    | true =>
      refine ⟨l, by simp [loopBody, decRom_pad, hs], hacc, hs, ?_, nofun⟩
      simpa [hs] using hcount
    | false =>
      obtain rfl := hpos hs
      have hd : vals.length = 2 ∨ vals.length = 4 ∨ vals.length = 5 ∨ vals.length = 7 := by
        simpa [hs] using hd
      refine ⟨{ l with seen := true, d := vals.length }, ?_, hacc, rfl, rfl, nofun⟩
      simp [loopBody, decRom_pad, hs, hd]

/-- The bytes that the loop of R94 emits for a block. -/
def loopBytes (l : Loop) : List Byte :=
  [byteAt l.acc 0, byteAt l.acc 1, byteAt l.acc 2, byteAt l.acc 3, byteAt l.acc 4].take
    (blockByteCount l.d)

/-- At the end of a block, the loop emits what the walk's values make (R92). -/
theorem Tracks.loopBytes_eq {l : Loop} {vals : List Sym} {seen : Bool} (h : Tracks l 8 vals seen) :
    loopBytes l = blockBytes vals := by
  have hd : l.d = vals.length := by
    rw [h.d_eq]
    cases seen with
    | true => rfl
    | false => exact (h.length_eq rfl).symm
  rw [loopBytes, h.acc_eq, hd]
  rfl

/-- The loop over the last `m` positions of a block does what the walk over their characters does.
-/
theorem foldlM_loopBody {final : Bool} {i m : Nat} (f : Nat → Byte) {l : Loop} {vals : List Sym}
    {seen : Bool} (hi : i + m = 8) (hl : Tracks l i vals seen) :
    ((List.range' i m).foldlM (fun l j => loopBody final j (f j) l) l).map loopBytes =
      (walkBlock final vals seen ((List.range' i m).map f)).map blockBytes := by
  induction m generalizing i l vals seen with
  | zero =>
    obtain rfl : i = 8 := hi
    exact congrArg Except.ok hl.loopBytes_eq
  | succ m ih =>
    rw [List.range'_succ, List.foldlM_cons, List.map_cons]
    cases hc : charFault final seen vals.length (f i) with
    | some k =>
      have hloop : charFault final l.seen i (f i) = some k := by
        rw [hl.seen_eq, ← hc]
        exact (charFault_congr hl.length_eq _).symm
      rw [walkBlock_cons_of_fault hc, loopBody_of_fault hloop]
      rfl
    | none =>
      obtain ⟨l', hbody, hl'⟩ := hl.loopBody_accept (by omega) hc
      rw [walkBlock_cons_of_accept hc, hbody]
      exact ih (by omega) hl'

/-- The inner loop on block `b` does what the walk over its characters does. -/
theorem loopBlock_eq_walkBlock {n : List Byte} {b : Nat} (hb : 8 * b + 8 ≤ n.length) :
    (loopBlock n b).map loopBytes =
      (walkBlock (b == n.length / 8 - 1) [] false ((n.drop (8 * b)).take 8)).map blockBytes := by
  have hchars : (n.drop (8 * b)).take 8 =
      (List.range' 0 8).map fun i => n.getD (8 * b + i) 0#8 := by
    apply List.ext_getElem
    · simp; omega
    · intro i hi _
      have hi : i < 8 := by simp at hi; omega
      rw [List.getElem_map, List.getElem_range', List.getElem_take, List.getElem_drop,
        List.getD_eq_getElem _ _ (by omega)]
      simp
  rw [hchars, loopBlock, List.range_eq_range']
  exact foldlM_loopBody (fun i => n.getD (8 * b + i) 0#8) rfl ⟨rfl, rfl, rfl, fun _ => rfl⟩

/-! ### The outer loop -/

/-- The bytes of the first block, then those of the others. -/
theorem unpackBlocks_succ (nb : Nat) (t : List Byte) :
    unpackBlocks (nb + 1) t =
      ((walkBlock (nb == 0) [] false (t.take 8)).map blockBytes >>= fun x =>
        (unpackBlocks nb (t.drop 8)).map (x ++ ·)) := by
  rw [unpackBlocks]
  cases walkBlock (nb == 0) [] false (t.take 8) with
  | error k => rfl
  | ok v => cases unpackBlocks nb (t.drop 8) <;> rfl

/-- The loop over the last `m` blocks adds to `r` what these blocks unpack to. -/
theorem foldlM_loopBlock {n r : List Byte} {nb b m : Nat} (hn : n.length = 8 * nb)
    (hb : b + m = nb) :
    (List.range' b m).foldlM (fun r b => (loopBlock n b).map fun l => r ++ loopBytes l) r =
      (unpackBlocks m (n.drop (8 * b))).map (r ++ ·) := by
  induction m generalizing b r with
  | zero => exact congrArg Except.ok (List.append_nil r).symm
  | succ m ih =>
    have hfinal : (b == n.length / 8 - 1) = (m == 0) := by
      rw [Bool.eq_iff_iff]
      simp
      omega
    have hblock := loopBlock_eq_walkBlock (n := n) (b := b) (by omega)
    rw [hfinal] at hblock
    have hbytes : (loopBlock n b).map (fun l => r ++ loopBytes l) =
        ((loopBlock n b).map loopBytes).map (r ++ ·) := by
      cases loopBlock n b <;> rfl
    rw [List.range'_succ, List.foldlM_cons, unpackBlocks_succ, hbytes, hblock]
    cases (walkBlock (m == 0) [] false ((n.drop (8 * b)).take 8)).map blockBytes with
    | error k => rfl
    | ok x =>
      have hrest := ih (b := b + 1) (r := r ++ x) (by omega)
      rw [Nat.mul_succ, ← List.drop_drop] at hrest
      refine hrest.trans ?_
      cases unpackBlocks m ((n.drop (8 * b)).drop 8) with
      | error k => rfl
      | ok u => exact congrArg Except.ok (List.append_assoc r x u)

/-- Settles O22: each iteration of the inner loop is one character of the walk, each of the outer
loop one block. -/
theorem unpackIsTheLoop : Obligations.UnpackIsTheLoop := by
  intro n _ hn
  have hlen : n.length = 8 * (n.length / 8) := by omega
  have hloop := foldlM_loopBlock (r := []) hlen (Nat.zero_add _)
  rw [Nat.mul_zero, List.drop_zero, ← List.range_eq_range'] at hloop
  refine Eq.trans ?_ hloop.symm
  rw [unpack]
  cases unpackBlocks (n.length / 8) n <;> rfl

end Sys2Proof.Machine
end

section
/-! PROOFS. The checks before `UNPACK`: the pre-checks in words (O21), the order of the checks
(O30), and the decoders as commands (O24, O35). -/

namespace Sys2Proof.Machine

/-! ### The pre-checks -/

/-- The lengths modulo 8 whose pre-check looks at the tail, each with its window `K` (R54, R89). -/
def windows : List (Nat × Nat) := [(4, 2), (5, 3), (7, 1)]

theorem precheckTolerant_of_no_check {t : List Byte} (h : t.length % 8 = 0 ∨ t.length % 8 = 2) :
    precheckTolerant t = none := by
  simp [precheckTolerant, h]

theorem windows_spec {rmod K : Nat} (h : (rmod, K) ∈ windows) :
    padWindow rmod = K ∧ K < rmod ∧ ¬(rmod = 0 ∨ rmod = 2) := by
  simp only [windows, List.mem_cons, Prod.mk.injEq, List.not_mem_nil, or_false] at h
  rcases h with ⟨rfl, rfl⟩ | ⟨rfl, rfl⟩ | ⟨rfl, rfl⟩ <;> decide

/-- The window is the end of the tail. -/
theorem drop_tail_window {t : List Byte} {rmod K : Nat} (h : t.length % 8 = rmod) (hK : K < rmod) :
    (t.drop (t.length - rmod)).drop (rmod - K) = t.drop (t.length - K) := by
  rw [List.drop_drop]
  congr 1
  omega

/-- The pre-check passes exactly when no pad stands before the window, and in the window there is no
pad or nothing else (R89). -/
theorem precheckTolerant_eq_none_iff {t : List Byte} {rmod K : Nat} (hK : (rmod, K) ∈ windows)
    (h : t.length % 8 = rmod) :
    precheckTolerant t = none ↔
      pad ∉ (t.drop (t.length - rmod)).take (rmod - K) ∧
        ((t.drop (t.length - K)).count pad = 0 ∨ (t.drop (t.length - K)).count pad = K) := by
  obtain ⟨hwindow, hlt, hchecked⟩ := windows_spec hK
  simp only [precheckTolerant, tailOf, h, hchecked, hwindow, drop_tail_window h hlt, if_false]
  split
  · rename_i hbefore
    simp [hbefore]
  · rename_i hbefore
    simp only [hbefore, not_false_eq_true, true_and, ite_eq_right_iff, reduceCtorEq, imp_false,
      not_and_or, not_not]

theorem precheckTolerant_kind (t : List Byte) :
    precheckTolerant t = none ∨ precheckTolerant t = some .invalidPadding := by
  simp only [precheckTolerant]
  split
  · exact .inl rfl
  · split
    · exact .inr rfl
    · split
      · exact .inr rfl
      · exact .inl rfl

/-- Settles O21: the count of R89 is 0 when there is no pad and `K` when there is nothing else. -/
theorem tolerantPrecheckMeaning : Obligations.TolerantPrecheckMeaning := by
  refine fun t _ => ⟨precheckTolerant_of_no_check, fun rmod K hK h =>
    ⟨?_, precheckTolerant_kind t⟩⟩
  have hlt := (windows_spec hK).2.1
  have hlen : (t.drop (t.length - K)).length = K := by
    rw [List.length_drop]
    omega
  have hall := List.count_eq_length (a := pad) (l := t.drop (t.length - K))
  rw [hlen] at hall
  rw [precheckTolerant_eq_none_iff hK h, hall, List.count_eq_zero]
  simp only [← List.forall_mem_ne', ne_eq, or_comm, eq_comm (a := pad)]
  rfl

theorem precheckUnpadded_of_whole {t : List Byte} (h : t.length % 8 = 0) :
    precheckUnpadded t = if t.getLast? = some pad then some .invalidPadding else none := by
  simp [precheckUnpadded, h]

theorem precheckUnpadded_of_two {t : List Byte} (h : t.length % 8 = 2) :
    precheckUnpadded t = none := by
  simp [precheckUnpadded, h]

theorem precheckUnpadded_of_tail {t : List Byte} (h0 : t.length % 8 ≠ 0) (h2 : t.length % 8 ≠ 2) :
    precheckUnpadded t =
      if pad ∈ t.drop (t.length - t.length % 8) then some .invalidPadding else none := by
  rw [precheckUnpadded, if_neg h0, if_neg h2]
  rfl

theorem precheckUnpadded_kind (t : List Byte) :
    precheckUnpadded t = none ∨ precheckUnpadded t = some .invalidPadding := by
  by_cases h0 : t.length % 8 = 0
  · rw [precheckUnpadded_of_whole h0]
    split <;> simp
  · by_cases h2 : t.length % 8 = 2
    · exact .inl (precheckUnpadded_of_two h2)
    · rw [precheckUnpadded_of_tail h0 h2]
      split <;> simp

/-! ### The order of the checks -/

theorem decodeAfter_of_illegal {t : List Byte} (h : illegalSize (t.length % 8) = true)
    (check : Option ErrorKind) : decodeAfter check t = .error .invalidSize := by
  have hpos : t.length ≠ 0 := fun h0 => by simp [h0, illegalSize] at h
  simp [decodeAfter, hpos, h]

theorem decode_of_illegal {t : List Byte} (h : illegalSize (t.length % 8) = true) :
    decodeTolerant t = .error .invalidSize ∧ decodeUnpadded t = .error .invalidSize ∧
      decodePadded t = .error .invalidSize := by
  rw [decodeTolerant_eq, decodeUnpadded_eq, decodePadded_eq]
  exact ⟨decodeAfter_of_illegal h _, decodeAfter_of_illegal h _, decodeAfter_of_illegal h _⟩

theorem decodeAfter_of_fail {t : List Byte} (hpos : 0 < t.length)
    (h : illegalSize (t.length % 8) = false) (k : ErrorKind) :
    decodeAfter (some k) t = .error k := by
  simp [decodeAfter, hpos.ne', h]

/-- Past the checks, the empty text is no special case: `UNPACK` makes nothing of it (R86). -/
theorem decodeAfter_of_pass {t : List Byte} (h : illegalSize (t.length % 8) = false) :
    decodeAfter none t = unpack (normalise t) := by
  by_cases h0 : t.length = 0
  · rw [List.eq_nil_of_length_eq_zero h0]
    rfl
  · simp [decodeAfter, h0, h]

theorem decodeTolerant_of_pass {t : List Byte} (h : illegalSize (t.length % 8) = false)
    (hpass : precheckTolerant t = none) : decodeTolerant t = unpack (normalise t) := by
  rw [decodeTolerant_eq, hpass, decodeAfter_of_pass h]

theorem decodeUnpadded_of_pass {t : List Byte} (h : illegalSize (t.length % 8) = false)
    (hpass : precheckUnpadded t = none) : decodeUnpadded t = unpack (normalise t) := by
  rw [decodeUnpadded_eq, hpass, decodeAfter_of_pass h]

theorem decodePadded_of_whole {t : List Byte} (h : t.length % 8 = 0) :
    decodePadded t = unpack t := by
  rw [decodePadded_eq, if_neg (by simpa using h), decodeAfter_of_pass (by rw [h]; rfl),
    normalise_of_whole h]

theorem decodeTolerant_of_whole {t : List Byte} (h : t.length % 8 = 0) :
    decodeTolerant t = unpack t := by
  rw [decodeTolerant_of_pass (by rw [h]; rfl) (precheckTolerant_of_no_check (.inl h)),
    normalise_of_whole h]

theorem decodePadded_of_part {t : List Byte} (h : illegalSize (t.length % 8) = false)
    (hpart : t.length % 8 ≠ 0) : decodePadded t = .error .requiresPadding := by
  rw [decodePadded_eq, if_pos hpart, decodeAfter_of_fail (by omega) h]

/-- The sizes of the table of R54 are legal, and it gives their number of pads to append. -/
theorem appendCount_of_mem {rmod a : Nat}
    (h : (rmod, a) ∈ [(0, 0), (2, 6), (4, 4), (5, 3), (7, 1)]) :
    illegalSize rmod = false ∧ appendCount rmod = a := by
  simp only [List.mem_cons, Prod.mk.injEq, List.not_mem_nil, or_false] at h
  rcases h with ⟨rfl, rfl⟩ | ⟨rfl, rfl⟩ | ⟨rfl, rfl⟩ | ⟨rfl, rfl⟩ | ⟨rfl, rfl⟩ <;> decide

/-- Settles O30: by the verdict of each check in the order of R99, the examples by evaluation. -/
theorem earlierCheckDecides : Obligations.EarlierCheckDecides := by
  refine ⟨fun t hpos => ⟨fun h => ?size, fun h k hk => ?tolerant, fun h k hk => ?unpadded,
    decodePadded_of_part, fun rmod a ha h => ?pass, decodePadded_of_whole⟩, ?_, ?_, ?_⟩
  case size => exact decode_of_illegal h
  case tolerant => rw [decodeTolerant_eq, hk, decodeAfter_of_fail hpos h]
  case unpadded => rw [decodeUnpadded_eq, hk, decodeAfter_of_fail hpos h]
  case pass =>
    obtain ⟨hlegal, happend⟩ := appendCount_of_mem ha
    have hnorm : normalise t = t ++ List.replicate a 0x3D#8 := by
      rw [normalise, h, happend]
      rfl
    rw [← h] at hlegal
    rw [← hnorm]
    exact ⟨rfl, decodeTolerant_of_pass hlegal, decodeUnpadded_of_pass hlegal⟩
  all_goals rfl

/-! ### The decoders as commands -/

/-- The three rows of R119 that are decoders. -/
theorem commandResult_of_decoder {x : List Byte} {c : Instr × Except ErrorKind (List Byte)}
    (h : c ∈ [(Instr.dec, decodeTolerant x), (.decu, decodeUnpadded x), (.decp, decodePadded x)]) :
    commandResult c.1 x = Result.ofDecode c.2 := by
  simp only [List.mem_cons, List.not_mem_nil, or_false] at h
  rcases h with rfl | rfl | rfl <;> rfl

/-- Settles O35: the write-back of R119 for the row of the decoder. -/
theorem decodersComplete : Obligations.DecodersComplete := by
  intro s x hx c hc
  rw [exec_ready c.1 hx, commandResult_of_decoder hc]
  refine ⟨fun r hr => ?_, fun k hk => ?_⟩
  · rw [hr]
    rfl
  · rw [hk]
    rfl

/-- The host reads zero at and beyond `OUT_LEN`, as far as `OUT` reaches (R36). -/
theorem hostRout_of_out_nil {s : State} {j : Nat} (hs : s.status ≠ .busy) (hout : s.out = [])
    (hj : j < capOut s.capIn) : hostStep (.rout j) s = .next (s.give 0) := by
  have hgate : hostStep (.rout j) s = _ := whenNotBusy_open hs _
  rw [hgate, if_neg (Nat.not_le.2 hj), State.readOut, hout]
  rfl

/-- Settles O24: only a decoder ends in an error, and then it writes back no byte. -/
theorem noPartialOutput : Obligations.NoPartialOutput := by
  intro i s t h herr
  rw [exec_eq_complete] at h
  obtain ⟨x, -, rfl⟩ := complete_next h
  obtain ⟨hout, hres, -⟩ := commandResult_of_err herr
  exact ⟨congrArg List.length hout, hres, fun j hj => hostRout_of_out_nil nofun hout hj⟩

end Sys2Proof.Machine
end

section
/-! PROOFS. The decoders accept nothing but clean texts: the length of a result (O25), and the
pads that the unpadded-only decoder rejects (O26, O59). -/

namespace Sys2Proof.Machine

open Sys2Proof.Reference

/-! ### `UNPACK` of clean texts -/

/-- The lengths of the run of pads in an accepted final block: 8 less its data symbols (R91, R92).
-/
def padRuns : List Nat := [0, 1, 3, 4, 6]

theorem le_of_mem_padRuns {k : Nat} (h : k ∈ padRuns) : k ≤ 6 := by
  revert k
  decide

/-- `UNPACK` makes of a clean text the bytes that its data symbols hold. -/
theorem unpack_cleanText {v : List Sym} {k : Nat} (hk : k ∈ padRuns)
    (hlen : (v.length + k) % 8 = 0) : ∃ r, unpack (cleanText v k) = .ok r ∧ HoldsBytes v r :=
  unpackBlocks_cleanText hk (by rw [cleanText_length]; omega)

theorem unpack_of_holdsBytes {v : List Sym} {k : Nat} {r : List Byte} (hk : k ∈ padRuns)
    (hlen : (v.length + k) % 8 = 0) (hr : HoldsBytes v r) : unpack (cleanText v k) = .ok r := by
  obtain ⟨u, hu, hbytes⟩ := unpack_cleanText hk hlen
  rw [hu, hbytes.unique hr]

/-- Every text of whole blocks that `UNPACK` accepts is clean, and its result is what the data
symbols hold. -/
theorem cleanText_of_unpack {n r : List Byte} (hlen : n.length % 8 = 0) (h : unpack n = .ok r) :
    ∃ v k, k ∈ padRuns ∧ n = cleanText v k ∧ HoldsBytes v r := by
  obtain ⟨v, k, hk, rfl⟩ := cleanText_of_unpackBlocks (by omega) h
  obtain ⟨u, hu, hbytes⟩ := unpack_cleanText hk (by simpa using hlen)
  rw [h] at hu
  cases hu
  exact ⟨v, k, hk, rfl, hbytes⟩

/-- `UNPACK` raises two kinds of error, one of them only on a text with an invalid character. -/
theorem unpack_error_kind {n : List Byte} {k : ErrorKind} (hlen : n.length % 8 = 0)
    (h : unpack n = .error k) :
    k = .invalidPadding ∨ k = .invalidCharacter ∧ ∃ c ∈ n, decRom c = .invalid := by
  rw [← errorOf_eq_some_iff, errorOf_unpack hlen, findSome?_range_eq_some_iff] at h
  obtain ⟨i, hi, hfault, -⟩ := h
  rw [faultAt_eq_charFault hi] at hfault
  exact (charFault_kind hfault).imp_right fun ⟨hk, hc⟩ => ⟨hk, n[i], List.getElem_mem hi, hc⟩

theorem decRom_ne_invalid_of_mem_cleanText {v : List Sym} {k : Nat} {c : Byte}
    (h : c ∈ cleanText v k) : decRom c ≠ .invalid := by
  rcases List.mem_append.1 h with h | h
  · obtain ⟨s, -, rfl⟩ := List.mem_map.1 h
    simp
  · rw [List.eq_of_mem_replicate h, decRom_pad]
    nofun

/-- The one error that `UNPACK` raises on a clean text is `InvalidPadding`. -/
theorem unpack_cleanText_error_kind {v : List Sym} {k : Nat} {e : ErrorKind}
    (hlen : (v.length + k) % 8 = 0) (h : unpack (cleanText v k) = .error e) :
    e = .invalidPadding := by
  rcases unpack_error_kind (by simpa using hlen) h with he | ⟨-, c, hc, hinv⟩
  · exact he
  · exact absurd hinv (decRom_ne_invalid_of_mem_cleanText hc)

/-- A clean text with any other run of pads is rejected. -/
theorem unpack_cleanText_error {v : List Sym} {k : Nat} (hk : k ∉ padRuns)
    (hlen : (v.length + k) % 8 = 0) : unpack (cleanText v k) = .error .invalidPadding := by
  cases h : unpack (cleanText v k) with
  | error e => rw [unpack_cleanText_error_kind hlen h]
  | ok r =>
    obtain ⟨u, j, hj, heq, -⟩ := cleanText_of_unpack (by simpa using hlen) h
    exact absurd (cleanText_pads_eq heq ▸ hj) hk

/-! ### What a successful decode says of the text -/

/-- A legal size with the pads appended to it is whole blocks (R54). -/
theorem add_appendCount_mod {n : Nat} (h : illegalSize (n % 8) = false) :
    (n + appendCount (n % 8)) % 8 = 0 := by
  have hlt : n % 8 < 8 := Nat.mod_lt _ (by decide)
  have hrow : ∀ r < 8, illegalSize r = false → (r + appendCount r) % 8 = 0 := by decide
  have := hrow _ hlt h
  omega

theorem normalise_length (t : List Byte) :
    (normalise t).length = t.length + appendCount (t.length % 8) := by
  simp [normalise]

theorem appendCount_le (r : Nat) : appendCount r ≤ 6 := by
  unfold appendCount
  split <;> decide

theorem legal_of_decodeAfter_ok {check : Option ErrorKind} {t r : List Byte}
    (h : decodeAfter check t = .ok r) : illegalSize (t.length % 8) = false := by
  cases hill : illegalSize (t.length % 8) with
  | false => rfl
  | true => rw [decodeAfter_of_illegal hill] at h; cases h

/-- A decode succeeds only on a text whose normal form is clean, with what its data symbols hold. -/
theorem cleanText_of_decodeAfter {check : Option ErrorKind} {t r : List Byte}
    (h : decodeAfter check t = .ok r) :
    ∃ v k, k ∈ padRuns ∧ normalise t = cleanText v k ∧ HoldsBytes v r :=
  cleanText_of_unpack (by rw [normalise_length, add_appendCount_mod (legal_of_decodeAfter_ok h)])
    (unpack_of_decodeAfter h)

theorem decodeAfter_of_decode {t r : List Byte}
    (h : decodeTolerant t = .ok r ∨ decodeUnpadded t = .ok r ∨ decodePadded t = .ok r) :
    ∃ check, decodeAfter check t = .ok r := by
  rcases h with h | h | h
  · exact ⟨_, decodeTolerant_eq t ▸ h⟩
  · exact ⟨_, decodeUnpadded_eq t ▸ h⟩
  · exact ⟨_, decodePadded_eq t ▸ h⟩

theorem countP_ne_pad_cleanText (v : List Sym) (k : Nat) :
    (cleanText v k).countP (· != pad) = v.length := by
  have hsym : ∀ c ∈ v.map encRom, (c != pad) = true := by
    intro c hc
    obtain ⟨s, -, rfl⟩ := List.mem_map.1 hc
    exact bne_iff_ne.2 (encRom_ne_pad s)
  rw [cleanText, List.countP_append, List.countP_eq_length.2 hsym, List.length_map]
  simp [List.countP_replicate]

/-- Settles O25: the data symbols of the normalised text are whole blocks of eight and those of
the final block, and they hold `floor(5 / 8)` of their number. -/
theorem successfulResultLength : Obligations.SuccessfulResultLength := by
  intro t r hpos hdec
  obtain ⟨check, h⟩ := decodeAfter_of_decode hdec
  obtain ⟨v, k, hk, hnorm, hrlen, -⟩ := cleanText_of_decodeAfter h
  have hlegal := add_appendCount_mod (legal_of_decodeAfter_ok h)
  have happend := appendCount_le (t.length % 8)
  have hk6 := le_of_mem_padRuns hk
  have hlen : v.length + k = t.length + appendCount (t.length % 8) := by
    rw [← cleanText_length, ← hnorm, normalise_length]
  have hfinal := countP_ne_pad_cleanText (v.drop (8 * ((t.length + 7) / 8 - 1))) k
  rw [← cleanText_drop k (by omega), ← hnorm, List.length_drop] at hfinal
  refine ⟨?_, decodeAfter_ok_length_le h, by omega⟩
  have hd : ((normalise t).drop (8 * ((t.length + 7) / 8 - 1))).countP (· != 0x3D#8) =
    v.length - 8 * ((t.length + 7) / 8 - 1) := hfinal
  rw [hd, hrlen, blockByteCount]
  omega

/-! ### Pads in clean texts -/

/-- The pads of a clean text stand at its end. -/
theorem count_pad_cleanText_drop (v : List Sym) (k i : Nat) :
    ((cleanText v k).drop i).count pad = min k (v.length + k - i) := by
  rcases Nat.le_total i v.length with hi | hi
  · rw [cleanText_drop k hi, count_pad_cleanText]
    omega
  · have hdrop : (cleanText v k).drop i = List.replicate (k - (i - v.length)) pad := by
      rw [cleanText, List.drop_append, List.drop_eq_nil_of_le (by simpa using hi)]
      simp
    rw [hdrop, List.count_replicate_self]
    omega

/-- The tolerant pre-check passes a clean text exactly when its pads are none or fill the window
(R89). -/
theorem precheckTolerant_cleanText {v : List Sym} {k rmod K : Nat} (hK : (rmod, K) ∈ windows)
    (h : (v.length + k) % 8 = rmod) : precheckTolerant (cleanText v k) = none ↔ k = 0 ∨ k = K := by
  obtain ⟨-, hlt, -⟩ := windows_spec hK
  have hlen : (cleanText v k).length % 8 = rmod := by rw [cleanText_length, h]
  have htail : (((cleanText v k).drop ((cleanText v k).length - rmod)).take (rmod - K)).count pad =
      min k rmod - min k K := by
    have hsplit := List.take_append_drop (rmod - K)
      ((cleanText v k).drop ((cleanText v k).length - rmod))
    have hcount := congrArg (List.count pad) hsplit
    rw [List.count_append, drop_tail_window hlen hlt, count_pad_cleanText_drop,
      count_pad_cleanText_drop, cleanText_length] at hcount
    rw [cleanText_length]
    omega
  rw [precheckTolerant_eq_none_iff hK hlen, ← List.count_eq_zero, htail, count_pad_cleanText_drop,
    cleanText_length]
  omega

/-- The legal sizes: two without a check of the tail, and those with a window (R54). -/
theorem legal_size_cases {n : Nat} (h : illegalSize (n % 8) = false) :
    (n % 8 = 0 ∨ n % 8 = 2) ∨ (n % 8, padWindow (n % 8)) ∈ windows := by
  have hrow : ∀ r < 8, illegalSize r = false → (r = 0 ∨ r = 2) ∨ (r, padWindow r) ∈ windows := by
    decide
  exact hrow _ (Nat.mod_lt _ (by decide)) h

/-- Data symbols alone pass the tolerant pre-check. -/
theorem precheckTolerant_symbols {v : List Sym} (h : illegalSize (v.length % 8) = false) :
    precheckTolerant (cleanText v 0) = none := by
  rcases legal_size_cases h with hno | hK
  · exact precheckTolerant_of_no_check (by simpa using hno)
  · exact (precheckTolerant_cleanText hK rfl).2 (.inl rfl)

/-- A text without a pad passes the unpadded-only pre-check. -/
theorem precheckUnpadded_of_no_pad {t : List Byte} (h : pad ∉ t) : precheckUnpadded t = none := by
  by_cases h0 : t.length % 8 = 0
  · rw [precheckUnpadded_of_whole h0, if_neg fun hlast => h (List.mem_of_getLast? hlast)]
  · by_cases h2 : t.length % 8 = 2
    · exact precheckUnpadded_of_two h2
    · rw [precheckUnpadded_of_tail h0 h2, if_neg fun htail => h (List.mem_of_mem_drop htail)]

theorem precheckUnpadded_symbols (v : List Sym) : precheckUnpadded (cleanText v 0) = none :=
  precheckUnpadded_of_no_pad (List.count_eq_zero.1 (count_pad_cleanText v 0))

/-- Outside of two-character tails, the unpadded-only pre-check fails on a clean text with pads
(R96). -/
theorem precheckUnpadded_pads {v : List Sym} {k : Nat} (hk : k ≠ 0)
    (h2 : (v.length + k) % 8 ≠ 2) :
    precheckUnpadded (cleanText v k) = some .invalidPadding := by
  have hlen := cleanText_length v k
  by_cases h0 : (v.length + k) % 8 = 0
  · have hlast : (cleanText v k).getLast? = some pad := by
      simp [cleanText, List.getLast?_append, List.getLast?_replicate, hk]
    rw [precheckUnpadded_of_whole (by rw [hlen, h0]), if_pos hlast]
  · have htail : pad ∈ (cleanText v k).drop
        ((cleanText v k).length - (cleanText v k).length % 8) := by
      rw [← List.count_pos_iff, count_pad_cleanText_drop, hlen]
      omega
    rw [precheckUnpadded_of_tail (by rwa [hlen]) (by rwa [hlen]), if_pos htail]

/-! ### The unpadded-only decoder -/

/-- No text that holds a pad is accepted by the unpadded-only decoder (R102): its normal form
would be clean, so its pads would stand at its end, where the pre-check or too long a run gives
them away. -/
theorem decodeUnpadded_ne_ok {t : List Byte} (hpad : pad ∈ t) (r : List Byte) :
    decodeUnpadded t ≠ .ok r := by
  intro h
  have hlegal := legal_of_decodeAfter_ok (decodeUnpadded_eq t ▸ h)
  obtain ⟨v, k, hk, hnorm, -⟩ := cleanText_of_decodeAfter (decodeUnpadded_eq t ▸ h)
  have hcount : t.count pad + appendCount (t.length % 8) = k := by
    rw [← count_pad_cleanText v k, ← hnorm, normalise, List.count_append, List.count_replicate_self]
  have hpos := List.count_pos_iff.2 hpad
  have hclean : t = cleanText v (t.count pad) := by
    rw [normalise, ← hcount, ← cleanText_append_pads] at hnorm
    exact List.append_cancel_right hnorm
  have hlen : v.length + t.count pad = t.length := by rw [← cleanText_length, ← hclean]
  by_cases h2 : t.length % 8 = 2
  · have hk6 := le_of_mem_padRuns hk
    rw [h2, appendCount] at hcount
    omega
  · have hfail := precheckUnpadded_pads (v := v) hpos.ne' (by rwa [hlen])
    rw [← hclean] at hfail
    rw [decodeUnpadded_eq, hfail,
      decodeAfter_of_fail (List.length_pos_of_mem hpad) hlegal] at h
    cases h

/-- Settles O26: the pre-check fails with `InvalidPadding` only, `UNPACK` with two kinds, and one
of the two fails. -/
theorem unpaddedRejectsEveryPad : Obligations.UnpaddedRejectsEveryPad := by
  intro t hpad
  refine ⟨fun h => ?_, fun hlegal hpass hunpack => ?_, fun hlegal hnot => ?_⟩
  · rw [decodeUnpadded_eq, decodeAfter_of_illegal h]
  · rw [decodeUnpadded_of_pass hlegal hpass, hunpack]
  · rcases precheckUnpadded_kind t with hpass | hfail
    · have hdec := decodeUnpadded_of_pass hlegal hpass
      have hwhole : (normalise t).length % 8 = 0 := by
        rw [normalise_length, add_appendCount_mod hlegal]
      cases hunpack : unpack (normalise t) with
      | ok r => exact absurd (hdec.trans hunpack) (decodeUnpadded_ne_ok hpad r)
      | error k =>
        rcases unpack_error_kind hwhole hunpack with rfl | ⟨rfl, -⟩
        · exact hdec.trans hunpack
        · exact absurd ⟨hpass, hunpack⟩ hnot
    · rw [decodeUnpadded_eq, hfail, decodeAfter_of_fail (List.length_pos_of_mem hpad) hlegal]

/-- Settles O59: by the three length classes of R96; in the second the decoder rejects a pad all the
same. -/
theorem unpaddedPrecheckMeaning : Obligations.UnpaddedPrecheckMeaning := by
  refine fun t hpos => ⟨fun h0 => ?_, fun h2 => ⟨precheckUnpadded_of_two h2, fun hmem => ?_⟩,
    fun h => ?_, precheckUnpadded_kind t⟩
  · have hlast : t.getLast? = some (t.getD (t.length - 1) 0#8) := by
      rw [List.getLast?_eq_getElem?, List.getElem?_eq_getElem (by omega),
        List.getD_eq_getElem _ _ (by omega)]
    rw [precheckUnpadded_of_whole h0, Option.ite_none_right_eq_some, and_iff_left rfl, hlast,
      Option.some_inj]
    rfl
  · cases hdec : decodeUnpadded t with
    | error k => exact ⟨k, rfl⟩
    | ok r => exact absurd hdec (decodeUnpadded_ne_ok (List.mem_of_mem_drop hmem) r)
  · rw [precheckUnpadded_of_tail (by omega) (by omega), Option.ite_none_right_eq_some,
      and_iff_left rfl]
    rfl

end Sys2Proof.Machine
end

section
/-! PROOFS. What the decoders make of data symbols and pads: the table (O28), the round trips
(O27) and the unused bits of the last symbol (O29). -/

namespace Sys2Proof.Machine

open Sys2Proof.Reference

/-! ### Data symbols alone -/

/-- The pads appended to a legal size fill the final block of a tail (R54, R92). -/
theorem appendCount_mem_padRuns (r : Nat) : appendCount r ∈ padRuns := by
  unfold appendCount
  split <;> decide

theorem normalise_cleanText (v : List Sym) (k : Nat) :
    normalise (cleanText v k) = cleanText v (k + appendCount ((v.length + k) % 8)) := by
  rw [normalise, cleanText_length, cleanText_append_pads]

/-- Data symbols alone, of a legal size, are decoded by `DEC` and `DECU` to the bytes they hold. -/
theorem decode_symbols {v : List Sym} {r : List Byte} (h : illegalSize (v.length % 8) = false)
    (hr : HoldsBytes v r) :
    decodeTolerant (cleanText v 0) = .ok r ∧ decodeUnpadded (cleanText v 0) = .ok r := by
  have hlen : (cleanText v 0).length % 8 = v.length % 8 := by simp
  have hunpack : unpack (normalise (cleanText v 0)) = .ok r := by
    rw [normalise_cleanText, Nat.zero_add]
    exact unpack_of_holdsBytes (appendCount_mem_padRuns _) (add_appendCount_mod h) hr
  rw [decodeTolerant_of_pass (by rwa [hlen]) (precheckTolerant_symbols h),
    decodeUnpadded_of_pass (by rwa [hlen]) (precheckUnpadded_symbols v)]
  exact ⟨hunpack, hunpack⟩

/-- A clean text of whole blocks is decoded by `DEC` and `DECP` to the bytes its data symbols
hold. -/
theorem decode_padded_symbols {v : List Sym} {k : Nat} {r : List Byte} (hk : k ∈ padRuns)
    (hlen : (v.length + k) % 8 = 0) (hr : HoldsBytes v r) :
    decodeTolerant (cleanText v k) = .ok r ∧ decodePadded (cleanText v k) = .ok r := by
  have hwhole : (cleanText v k).length % 8 = 0 := by rwa [cleanText_length]
  rw [decodeTolerant_of_whole hwhole, decodePadded_of_whole hwhole]
  exact ⟨unpack_of_holdsBytes hk hlen hr, unpack_of_holdsBytes hk hlen hr⟩

/-- Data symbols of a legal size hold whole bytes. -/
theorem exists_holdsBytes {v : List Sym} (h : illegalSize (v.length % 8) = false) :
    ∃ r, HoldsBytes v r := by
  obtain ⟨r, -, hr⟩ := unpack_cleanText (appendCount_mem_padRuns _) (add_appendCount_mod h)
  exact ⟨r, hr⟩

/-! ### The round trips -/

/-- The sizes of an unpadded tail are legal, and `A` gives its `p` pads (R52, R54). -/
theorem appendCount_dataSymbols {n r : Nat} (hr : r < 5) (h : n % 8 = dataSymbols r) :
    illegalSize (n % 8) = false ∧ appendCount (n % 8) = padSymbols r := by
  rw [h]
  interval_cases r <;> decide

/-- What the encoder makes of `x`: data symbols that hold `x`, of a legal size, and in the padded
variant the pads that fill the last block. -/
theorem encodeText_eq_cleanText (x : List Byte) :
    ∃ v, HoldsBytes v x ∧ illegalSize (v.length % 8) = false ∧
      encodeText false x = cleanText v 0 ∧
      encodeText true x = cleanText v (appendCount (v.length % 8)) := by
  obtain ⟨v, htext, hcarries⟩ := encodeText_false_carriesBits x
  have hr : x.length % 5 < 5 := Nat.mod_lt _ (by decide)
  have hlen : v.length % 8 = dataSymbols (x.length % 5) := by
    have hgroups : (8 * x.length + 4) / 5 = 8 * (x.length / 5) + (8 * (x.length % 5) + 4) / 5 := by
      omega
    have htail : (8 * (x.length % 5) + 4) / 5 < 8 := by omega
    rw [dataSymbols_eq (by omega), hcarries.1, hgroups]
    omega
  obtain ⟨hlegal, happend⟩ := appendCount_dataSymbols hr hlen
  refine ⟨v, hcarries.holdsBytes, hlegal, by rw [htext, cleanText_zero], ?_⟩
  rw [encodeText_true_eq, htext, happend]
  rfl

/-- Settles O27: the data symbols of an encoding hold the bytes that were encoded; the converse
fails on a text with an unused bit set. -/
theorem roundTrip : Obligations.RoundTrip := by
  refine ⟨fun x => ?_, [12#5, 25#5].map encRom ++ List.replicate 6 pad, [0x66#8], rfl, ?_⟩
  · obtain ⟨v, hr, hlegal, hbare, hfull⟩ := encodeText_eq_cleanText x
    obtain ⟨htol, hunp⟩ := decode_symbols hlegal hr
    obtain ⟨htolp, hpad⟩ :=
      decode_padded_symbols (appendCount_mem_padRuns _) (add_appendCount_mod hlegal) hr
    rw [hbare, hfull]
    exact ⟨htolp, hunp, htol, hpad⟩
  · decide

/-! ### The unused bits -/

/-- Words with the same quotient by `2^u` agree in all but their `u` lowest bits. -/
theorem bitsOf_take_eq {n u : Nat} {v w : BitVec n} (h : v.toNat / 2 ^ u = w.toNat / 2 ^ u) :
    (bitsOf v).take (n - u) = (bitsOf w).take (n - u) := by
  apply List.ext_getElem
  · simp
  · intro j hj _
    have hj : j < n - u := by simp at hj; omega
    have hbit := congrArg (fun m => m.testBit (n - 1 - j - u)) h
    simp only [Nat.testBit_div_two_pow] at hbit
    have hpos : n - 1 - j - u + u = n - 1 - j := by omega
    rw [hpos] at hbit
    rw [List.getElem_take, List.getElem_take, bitsOf_getElem, bitsOf_getElem]
    simp [BitVec.getMsbD, BitVec.getLsbD, hbit]

/-- The unused bits of the last data symbol of a tail are in no byte (R52, R93). -/
theorem HoldsBytes.last_symbol {p : List Sym} {v w : Sym} {d : Nat} {r : List Byte}
    (hr : HoldsBytes (p ++ [v]) r) (hd : d ∈ [2, 4, 5, 7]) (hp : p.length % 8 = d - 1)
    (h : v.toNat / 2 ^ (5 * d - 8 * blockByteCount d) =
      w.toNat / 2 ^ (5 * d - 8 * blockByteCount d)) : HoldsBytes (p ++ [w]) r := by
  obtain ⟨hlen, hbits⟩ := hr
  rw [List.length_append, List.length_singleton] at hlen
  have hused : 8 * r.length = (bitsOfSyms p).length + (5 - (5 * d - 8 * blockByteCount d)) := by
    rw [bitsOfSyms_length, blockByteCount]
    simp only [List.mem_cons, List.not_mem_nil, or_false] at hd
    omega
  have hrow (u : Sym) : (bitsOfSyms (p ++ [u])).take (8 * r.length) =
      bitsOfSyms p ++ (bitsOf u).take (5 - (5 * d - 8 * blockByteCount d)) := by
    rw [bitsOfSyms_append, hused, List.take_length_add_append]
    simp [bitsOfSyms_eq_flatMap]
  refine ⟨by simpa using hlen, ?_⟩
  rw [List.prefix_iff_eq_take, bitsOfBytes_length, hrow] at hbits ⊢
  rwa [← bitsOf_take_eq h]

/-- The numbers of data symbols of a tail are legal sizes, and the pads behind them are those of an
accepted block (R52, R91). -/
theorem tail_size_spec :
    ∀ d ∈ [2, 4, 5, 7], illegalSize d = false ∧ 8 - d ∈ padRuns ∧ 1 ≤ d ∧ d < 8 := by
  decide

/-- Settles O29: both last symbols make the data symbols hold the same bytes. -/
theorem unusedBitsIgnored : Obligations.UnusedBitsIgnored := by
  refine ⟨fun p v w d hd hp h => ?_, ?_, by decide⟩
  · obtain ⟨hlegal, hpads, hpos, hlt⟩ := tail_size_spec d hd
    have hlen (u : Sym) : (p ++ [u]).length % 8 = d := by simp; omega
    have hsize (u : Sym) : illegalSize ((p ++ [u]).length % 8) = false := by rw [hlen, hlegal]
    obtain ⟨r, hr⟩ := exists_holdsBytes (hsize v)
    refine ⟨r, fun u hu => ?_⟩
    have hru : HoldsBytes (p ++ [u]) r := by
      simp only [List.mem_cons, List.not_mem_nil, or_false] at hu
      rcases hu with rfl | rfl
      · exact hr
      · exact hr.last_symbol hd hp h
    have hwhole : ((p ++ [u]).length + (8 - d)) % 8 = 0 := by
      have := hlen u
      omega
    obtain ⟨htolp, hpad⟩ := decode_padded_symbols hpads hwhole hru
    obtain ⟨htol, hunp⟩ := decode_symbols (hsize u) hru
    rw [cleanText_zero] at htol hunp
    exact ⟨htolp, hpad, htol, hunp⟩
  · intro u hu
    fin_cases hu <;> rfl

/-! ### The table of clean texts -/

/-- The unpadded-only decoder rejects a clean text of a legal size with pads as `InvalidPadding`:
there is no invalid character in it (R102). -/
theorem decodeUnpadded_cleanText_pads {v : List Sym} {k : Nat} (hk : k ≠ 0)
    (hlegal : illegalSize ((v.length + k) % 8) = false) :
    decodeUnpadded (cleanText v k) = .error .invalidPadding := by
  have hpad : pad ∈ cleanText v k := by
    rw [← List.count_pos_iff, count_pad_cleanText]
    omega
  obtain ⟨-, -, hkind⟩ := unpaddedRejectsEveryPad _ hpad
  refine hkind (by rwa [cleanText_length]) fun ⟨_, hinv⟩ => ?_
  rw [normalise_cleanText] at hinv
  have hwhole := add_appendCount_mod hlegal
  rw [Nat.add_assoc] at hwhole
  cases unpack_cleanText_error_kind hwhole hinv

/-- The two partly padded tails that the tolerant decoder accepts: two data symbols with two or
three pads (R95). -/
def PartlyPadded (rmod k : Nat) : Prop := rmod = 4 ∧ k = 2 ∨ rmod = 5 ∧ k = 3

/-- The pads that complete a partly padded tail to a block make a run of six. -/
theorem decodeTolerant_partlyPadded {v : List Sym} {k : Nat}
    (hlegal : illegalSize ((v.length + k) % 8) = false)
    (hk : PartlyPadded ((v.length + k) % 8) k) :
    ∃ r, decodeTolerant (cleanText v k) = .ok r ∧ HoldsBytes v r := by
  have hlen : (cleanText v k).length % 8 = (v.length + k) % 8 := by rw [cleanText_length]
  have hwindow : ((v.length + k) % 8, k) ∈ windows := by
    rcases hk with ⟨h, rfl⟩ | ⟨h, rfl⟩ <;> rw [h] <;> decide
  have happend : k + appendCount ((v.length + k) % 8) = 6 := by
    rcases hk with ⟨h, rfl⟩ | ⟨h, rfl⟩ <;> rw [h] <;> rfl
  have hwhole := add_appendCount_mod hlegal
  rw [Nat.add_assoc, happend] at hwhole
  have hpass := (precheckTolerant_cleanText hwindow rfl).2 (.inr rfl)
  rw [decodeTolerant_of_pass (by rwa [hlen]) hpass, normalise_cleanText, happend]
  exact unpack_cleanText (by decide) hwhole

/-- Any other run of pads in a clean text with a tail is rejected, by the pre-check or by
`UNPACK`. -/
theorem decodeTolerant_not_partlyPadded {v : List Sym} {k : Nat} (hk : k ≠ 0)
    (hlegal : illegalSize ((v.length + k) % 8) = false) (hpart : (v.length + k) % 8 ≠ 0)
    (hno : ¬PartlyPadded ((v.length + k) % 8) k) :
    decodeTolerant (cleanText v k) = .error .invalidPadding := by
  have hlen : (cleanText v k).length % 8 = (v.length + k) % 8 := by rw [cleanText_length]
  rcases precheckTolerant_kind (cleanText v k) with hpass | hfail
  · have hpads : k + appendCount ((v.length + k) % 8) ∉ padRuns := by
      rcases legal_size_cases hlegal with hsize | hK
      · have h2 : (v.length + k) % 8 = 2 := by omega
        intro hmem
        have := le_of_mem_padRuns hmem
        rw [h2, appendCount] at this
        omega
      · have hfill := (precheckTolerant_cleanText hK rfl).1 hpass
        simp only [windows, List.mem_cons, Prod.mk.injEq, List.not_mem_nil, or_false] at hK
        rw [PartlyPadded] at hno
        rcases hK with ⟨h, hK⟩ | ⟨h, hK⟩ | ⟨h, hK⟩
        · omega
        · omega
        · obtain rfl : k = 1 := by omega
          rw [h]
          decide
    have hwhole := add_appendCount_mod hlegal
    rw [Nat.add_assoc] at hwhole
    rw [decodeTolerant_of_pass (by rwa [hlen]) hpass, normalise_cleanText,
      unpack_cleanText_error hpads hwhole]
  · rw [decodeTolerant_eq, hfail,
      decodeAfter_of_fail (by rw [cleanText_length]; omega) (by rwa [hlen])]

theorem illegalSize_iff {r : Nat} : illegalSize r = true ↔ r = 1 ∨ r = 3 ∨ r = 6 := by
  simp [illegalSize, or_assoc]

/-- Settles O28: row by row, by the run of pads that `UNPACK` sees. -/
theorem cleanTextTable : Obligations.CleanTextTable := by
  intro v k t ht hpos
  obtain rfl : t = cleanText v k := ht
  rw [cleanText_length]
  refine ⟨fun h => ?size, fun h hk => ?noPads, fun h hk => ?pads, fun h hk => ?otherPads,
    fun h => ?tail⟩
  case size => exact decode_of_illegal (by rwa [cleanText_length, illegalSize_iff])
  case noPads =>
    subst hk
    have hlegal : illegalSize (v.length % 8) = false := by rw [← Nat.add_zero v.length, h]; rfl
    obtain ⟨r, hr⟩ := exists_holdsBytes hlegal
    obtain ⟨htol, hunp⟩ := decode_symbols hlegal hr
    exact ⟨r, htol, hunp, (decode_padded_symbols (by decide) h hr).2, hr.1⟩
  case pads =>
    have hruns : ∀ j ∈ [1, 3, 4, 6], j ≠ 0 ∧ j ≤ 6 ∧ j ∈ padRuns := by decide
    obtain ⟨hk0, hk6, hk⟩ := hruns k hk
    obtain ⟨r, -, hr⟩ := unpack_cleanText hk h
    obtain ⟨htol, hpad⟩ := decode_padded_symbols hk h hr
    refine ⟨r, htol, decodeUnpadded_cleanText_pads hk0 (by rw [h]; rfl), hpad, ?_⟩
    rw [hr.1, blockByteCount]
    omega
  case otherPads =>
    have hwhole : (cleanText v k).length % 8 = 0 := by rwa [cleanText_length]
    have hk0 : k ≠ 0 := fun h0 => hk (by simp [h0])
    rw [decodeTolerant_of_whole hwhole, decodePadded_of_whole hwhole, unpack_cleanText_error hk h]
    exact ⟨rfl, decodeUnpadded_cleanText_pads hk0 (by rw [h]; rfl), rfl⟩
  case tail =>
    have hlegal : illegalSize ((v.length + k) % 8) = false := by
      rw [← Bool.not_eq_true, illegalSize_iff]
      omega
    refine ⟨?padded, fun hk => ?noPads, fun hk => decodeUnpadded_cleanText_pads hk hlegal,
      fun hk => ?partly, fun hk hno => decodeTolerant_not_partlyPadded hk hlegal (by omega) hno⟩
    case padded =>
      exact decodePadded_of_part (by rwa [cleanText_length]) (by rw [cleanText_length]; omega)
    case noPads =>
      subst hk
      obtain ⟨r, hr⟩ := exists_holdsBytes hlegal
      obtain ⟨htol, hunp⟩ := decode_symbols hlegal hr
      refine ⟨r, htol, hunp, ?_⟩
      rw [hr.1, blockByteCount]
      omega
    case partly =>
      obtain ⟨r, htol, hr⟩ := decodeTolerant_partlyPadded hlegal hk
      refine ⟨r, htol, ?_⟩
      rw [hr.1]
      omega

end Sys2Proof.Machine
end

section
/-! PROOFS. The validator: what `SHAPE_VALID` says of a text (O31), `ISB32` against the tolerant
decoder (O32), and `VALID` and `ISB32` as commands (O36). -/

namespace Sys2Proof.Machine

/-! ### Pad runs -/

theorem padRun_eq_length_rtakeWhile (t : List Byte) :
    padRun t = (t.rtakeWhile (· == pad)).length := by
  simp [padRun, List.rtakeWhile]

/-- What stands behind the first `length - padRun` characters of a text is its run of pads. -/
theorem take_append_padRun (t : List Byte) :
    t.take (t.length - padRun t) ++ List.replicate (padRun t) pad = t := by
  have hsplit : t.rdropWhile (· == pad) ++ t.rtakeWhile (· == pad) = t :=
    List.rdropWhile_append_rtakeWhile
  have hrun : t.rtakeWhile (· == pad) = List.replicate (padRun t) pad :=
    List.eq_replicate_iff.2 ⟨(padRun_eq_length_rtakeWhile t).symm, fun _ hc =>
      eq_of_beq (List.mem_rtakeWhile_imp (p := (· == pad)) hc)⟩
  rw [hrun] at hsplit
  have hlen : (t.rdropWhile (· == pad)).length + padRun t = t.length := by
    simpa using congrArg List.length hsplit
  have hfront : t.rdropWhile (· == pad) = t.take (t.length - padRun t) := by
    rw [← hlen, Nat.add_sub_cancel]
    exact List.prefix_iff_eq_take.1 (List.rdropWhile_prefix _ _)
  rw [← hfront, hsplit]

@[simp] theorem padRun_cleanText (v : List Sym) (k : Nat) : padRun (cleanText v k) = k := by
  rw [padRun_eq_length_rtakeWhile]
  induction k with
  | zero =>
    have hlast : (v.map encRom).rtakeWhile (· == pad) = [] :=
      List.rtakeWhile_eq_nil_iff.2 fun hne => by simp [encRom_ne_pad]
    rw [cleanText_zero, hlast, List.length_nil]
  | succ k ih =>
    rw [← cleanText_append_pads, List.replicate_one, List.rtakeWhile_concat_pos _ _ _ (by simp),
      List.length_append, ih, List.length_singleton]

/-! ### The shape check -/

/-- A text whose characters are neither invalid nor pads is one of data symbols. -/
theorem exists_symbols {l : List Byte} (hvalid : ∀ c ∈ l, decRom c ≠ .invalid)
    (hpad : ∀ c ∈ l, c ≠ pad) : ∃ v : List Sym, v.map encRom = l := by
  have hsymbol : ∀ c ∈ l, c ∈ Set.range encRom := by
    intro c hc
    cases hdec : decRom c with
    | value s => exact ⟨s, encRom_of_decRom hdec⟩
    | padding => exact absurd ((decRom_eq_padding_iff c).1 hdec) (hpad c hc)
    | invalid => exact absurd hdec (hvalid c hc)
  rwa [← Set.mem_range, Set.range_list_map]

/-- The three conditions of R106. -/
theorem shapeValid_eq_true_iff (t : List Byte) :
    shapeValid t = true ↔ (∀ c ∈ t, decRom c ≠ .invalid) ∧
      (∀ c ∈ t.take (t.length - padRun t), c ≠ pad) ∧
      (t.length % 8, padRun t) ∈ legalShapes := by
  simp [shapeValid, and_assoc]

/-- On a clean text only the last condition of R106 is left. -/
theorem shapeValid_cleanText (v : List Sym) (k : Nat) :
    shapeValid (cleanText v k) = true ↔ ((v.length + k) % 8, k) ∈ legalShapes := by
  have hsymbols : ∀ c ∈ (cleanText v k).take (v.length + k - k), c ≠ pad := by
    rw [Nat.add_sub_cancel, cleanText_take k le_rfl, List.take_length]
    exact fun c hc => ne_of_mem_of_not_mem hc (List.count_eq_zero.1 (count_pad_symbols v))
  rw [shapeValid_eq_true_iff, padRun_cleanText, cleanText_length]
  exact ⟨fun ⟨_, _, h⟩ => h, fun h => ⟨fun _ => decRom_ne_invalid_of_mem_cleanText, hsymbols, h⟩⟩

theorem cleanText_of_shapeValid {t : List Byte} (h : shapeValid t = true) :
    ∃ v, t = cleanText v (padRun t) := by
  obtain ⟨hvalid, hpad, -⟩ := (shapeValid_eq_true_iff t).1 h
  obtain ⟨v, hv⟩ := exists_symbols (fun c hc => hvalid c (List.mem_of_mem_take hc)) hpad
  exact ⟨v, by rw [cleanText, hv, take_append_padRun]⟩

/-- Settles O31: a shape-valid text is clean, and on a clean text `k` is its run of pads. -/
theorem shapeValidMeaning : Obligations.ShapeValidMeaning := by
  refine fun t => ⟨fun h => ?_, ?_⟩
  · obtain ⟨v, hv⟩ := cleanText_of_shapeValid h
    exact ⟨v, padRun t, hv, ((shapeValid_eq_true_iff t).1 h).2.2⟩
  · rintro ⟨v, k, rfl, h⟩
    exact (shapeValid_cleanText v k).2 (cleanText_length v k ▸ h)

/-! ### The shapes that decode -/

/-- The shapes of the texts that the tolerant decoder accepts: the legal ones but `(7, 1)` (R111). -/
def decodableShapes : List (Nat × Nat) :=
  [(0, 0), (0, 1), (0, 3), (0, 4), (0, 6), (2, 0), (4, 0), (4, 2), (5, 0), (5, 3), (7, 0)]

theorem mem_legalShapes_iff (p : Nat × Nat) :
    p ∈ legalShapes ↔ p ∈ decodableShapes ∨ p = (7, 1) := by
  simp [legalShapes, decodableShapes, or_assoc]

/-- A shape decodes for one of three reasons: its pads end an accepted final block, it has none, or
it is a partly padded tail (R104). -/
theorem mem_decodableShapes_iff {r : Nat} (hr : r < 8) (k : Nat) :
    (r, k) ∈ decodableShapes ↔
      illegalSize r = false ∧ (r = 0 ∧ k ∈ padRuns ∨ k = 0 ∨ PartlyPadded r k) := by
  simp only [decodableShapes, padRuns, PartlyPadded, List.mem_cons, List.not_mem_nil, Prod.mk.injEq,
    ← Bool.not_eq_true, illegalSize_iff, or_false]
  omega

/-- The first characters of a clean text are a clean text. -/
theorem cleanText_take_eq_cleanText (v : List Sym) (k n : Nat) :
    (cleanText v k).take n = cleanText (v.take n) (min (n - v.length) k) := by
  simp [cleanText, List.take_append, List.map_take]

theorem cleanText_of_decodeTolerant {t r : List Byte} (h : decodeTolerant t = .ok r) :
    ∃ v k, t = cleanText v k := by
  obtain ⟨v, k, -, hnorm, -⟩ := cleanText_of_decodeAfter (decodeTolerant_eq t ▸ h)
  have htake : t = (normalise t).take t.length := by simp [normalise]
  exact ⟨_, _, by rw [htake, hnorm, cleanText_take_eq_cleanText]⟩

/-- The tolerant decoder accepts a clean text exactly when its shape is one of the eleven (R104). -/
theorem decodeTolerant_cleanText_ok_iff (v : List Sym) (k : Nat) :
    (∃ r, decodeTolerant (cleanText v k) = .ok r) ↔
      ((v.length + k) % 8, k) ∈ decodableShapes := by
  rw [mem_decodableShapes_iff (Nat.mod_lt _ (by decide))]
  constructor
  · rintro ⟨r, h⟩
    have hlegal := legal_of_decodeAfter_ok (decodeTolerant_eq _ ▸ h)
    rw [cleanText_length] at hlegal
    refine ⟨hlegal, ?_⟩
    by_contra hno
    rw [not_or, not_or] at hno
    obtain ⟨hblock, hpads, hpartly⟩ := hno
    by_cases hwhole : (v.length + k) % 8 = 0
    · rw [decodeTolerant_of_whole (by rwa [cleanText_length]),
        unpack_cleanText_error (fun hk => hblock ⟨hwhole, hk⟩) hwhole] at h
      cases h
    · rw [decodeTolerant_not_partlyPadded hpads hlegal hwhole hpartly] at h
      cases h
  · rintro ⟨hlegal, ⟨hwhole, hk⟩ | rfl | hpartly⟩
    · rw [decodeTolerant_of_whole (by rwa [cleanText_length])]
      exact (unpack_cleanText hk hwhole).imp fun _ => And.left
    · obtain ⟨r, hr⟩ := exists_holdsBytes hlegal
      exact ⟨r, (decode_symbols hlegal hr).1⟩
    · exact (decodeTolerant_partlyPadded hlegal hpartly).imp fun _ => And.left

theorem shapeValid_of_decodeTolerant {t r : List Byte} (h : decodeTolerant t = .ok r) :
    shapeValid t = true := by
  obtain ⟨v, k, rfl⟩ := cleanText_of_decodeTolerant h
  rw [shapeValid_cleanText, mem_legalShapes_iff]
  exact .inl ((decodeTolerant_cleanText_ok_iff v k).1 ⟨r, h⟩)

/-! ### `ISB32` -/

/-- The shape check of `ISB32` decides nothing: what decodes has passed it (R111). -/
theorem isBase32_iff_decodes (t : List Byte) :
    isBase32 t = true ↔ ∃ r, decodeTolerant t = .ok r := by
  rw [isBase32, Bool.and_eq_true, succeeds_iff]
  exact ⟨And.right, fun h => ⟨h.elim fun _ => shapeValid_of_decodeTolerant, h⟩⟩

theorem isBase32_cleanText (v : List Sym) (k : Nat) :
    isBase32 (cleanText v k) = true ↔ ((v.length + k) % 8, k) ∈ decodableShapes := by
  rw [isBase32_iff_decodes, decodeTolerant_cleanText_ok_iff]

/-- The legal shape that does not decode is `(7, 1)`. -/
theorem shapeValid_not_isBase32_cleanText (v : List Sym) (k : Nat) :
    shapeValid (cleanText v k) = true ∧ isBase32 (cleanText v k) = false ↔
      (v.length + k) % 8 = 7 ∧ k = 1 := by
  have hnot : (7, 1) ∉ decodableShapes := by decide
  rw [← Bool.not_eq_true, isBase32_cleanText, shapeValid_cleanText, mem_legalShapes_iff,
    ← Prod.mk.injEq]
  constructor
  · rintro ⟨hshape | hshape, hno⟩
    · exact absurd hshape hno
    · exact hshape
  · intro hshape
    rw [hshape]
    exact ⟨.inr rfl, hnot⟩

/-- Settles O32: all three sides speak of clean texts, and on those each is a set of shapes. -/
theorem isBase32IsDecodability : Obligations.IsBase32IsDecodability := by
  refine ⟨fun t => ⟨fun h => ?valid, isBase32_iff_decodes t, ⟨fun h => ?shape, ?ofShape⟩,
    ⟨fun h => ?exception, ?ofException⟩⟩, by decide, by decide⟩
  case valid => exact (Bool.and_eq_true_iff.1 h).1
  case shape =>
    obtain ⟨_, hr⟩ := (isBase32_iff_decodes t).1 h
    obtain ⟨v, k, rfl⟩ := cleanText_of_decodeTolerant hr
    exact ⟨v, k, rfl, (cleanText_length v k).symm ▸ (isBase32_cleanText v k).1 h⟩
  case ofShape =>
    rintro ⟨v, k, rfl, h⟩
    exact (isBase32_cleanText v k).2 (cleanText_length v k ▸ h)
  case exception =>
    obtain ⟨v, hv⟩ := cleanText_of_shapeValid h.1
    rw [hv] at h
    obtain ⟨hlen, hk⟩ := (shapeValid_not_isBase32_cleanText v _).1 h
    rw [← cleanText_length, ← hv] at hlen
    rw [hk] at hv
    exact ⟨v, hv, hlen⟩
  case ofException =>
    rintro ⟨v, rfl, h⟩
    exact (shapeValid_not_isBase32_cleanText v 1).2 ⟨by simpa using h, rfl⟩

/-! ### The validators as commands -/

/-- Settles O36: the write-back of R119 with the rows of `VALID` and `ISB32`. -/
theorem validatorsComplete : Obligations.ValidatorsComplete :=
  fun _ _ h => ⟨exec_ready .valid h, exec_ready .isb32 h⟩

end Sys2Proof.Machine
end

section
/-! PROOFS. What each host step does and when it is refused (O5, O41 to O45), the schedule (O2), and
the engine's step (O37). -/

namespace Sys2Proof.Machine

/-! ### Host steps that are enabled -/

/-- `WIN` inside the input buffer of a block that is not busy (R113). -/
theorem hostStep_win {s : State} {i : Nat} (b : Byte) (hs : s.status ≠ .busy) (hi : i < s.capIn) :
    hostStep (.win i b) s = .next { s with inBuf := Memory.write s.inBuf i b } :=
  (whenNotBusy_open hs _).trans (if_neg (Nat.not_le.2 hi))

/-- `WLEN` of a length that fits its register, in a block that is not busy (R114). -/
theorem hostStep_wlen {s : State} {n : Nat} (hs : s.status ≠ .busy) (hn : n < 2 ^ lenW s.capIn) :
    hostStep (.wlen n) s = .next { s with inLen := n } :=
  (whenNotBusy_open hs _).trans (if_neg (Nat.not_le.2 hn))

/-- `START` under the conditions (a) to (d) of R116. -/
theorem hostStep_start {s : State} {op : Opcode} (hs : s.status ≠ .busy) (hop : op.toNat ≤ 6)
    (harg : s.ArgumentWritten) :
    hostStep (.start op) s = .next { s with cmd := op, status := .busy } := by
  obtain ⟨x, hx⟩ := harg.holds
  have hgate : hostStep (.start op) s = _ := whenNotBusy_open hs _
  rw [hgate, if_neg (by simpa [Opcode.wellFormed] using hop), if_neg (Nat.not_lt.2 harg.1),
    (State.argument_ok_iff s x).2 hx]

/-- `ROUT` inside the output buffer of a block that is not busy (R118). -/
theorem hostStep_rout {s : State} {i : Nat} (hs : s.status ≠ .busy) (hi : i < capOut s.capIn) :
    hostStep (.rout i) s = .next (s.give (s.readOut i).toNat) :=
  (whenNotBusy_open hs _).trans (if_neg (Nat.not_le.2 hi))

/-- The bytes of the result, read through the `OUT` window (R36). -/
theorem State.readOut_of_lt {s : State} {i : Nat} (h : i < s.out.length) : s.readOut i = s.out[i] :=
  List.getD_eq_getElem _ _ h

/-- At and beyond `OUT_LEN` the `OUT` window reads zero (R36). -/
theorem State.readOut_of_le {s : State} {i : Nat} (h : s.out.length ≤ i) : s.readOut i = 0#8 :=
  List.getD_eq_default _ _ h

/-- The code of `RES` as a choice between its two values (R60). -/
theorem resCode_eq_ite (v : Bool) : resCode v = if v then 1 else 0 := by
  cases v <;> rfl

/-! ### Host steps that are refused -/

/-- While `BUSY` every host step but `RSTAT` is refused, whatever its argument (R120). -/
theorem hostStep_of_busy {s : State} {h : HostStep} (hs : s.status = .busy) (hne : h ≠ .rstat) :
    hostStep h s = .refused .busy := by
  cases h with
  | rstat => exact absurd rfl hne
  | _ => exact whenNotBusy_shut hs _

/-- `START` gives a next state under the conditions (a) to (d) of R116 only. -/
theorem hostStep_start_next {s t : State} {op : Opcode} (e : hostStep (.start op) s = .next t) :
    s.status ≠ .busy ∧ op.toNat ≤ 6 ∧ s.ArgumentWritten := by
  obtain ⟨hidle, e⟩ := whenNotBusy_next e
  split at e
  · cases e
  · rename_i hop
    split at e
    · cases e
    · split at e
      · rename_i x hx
        exact ⟨hidle, by simpa [Opcode.wellFormed] using hop,
          ((State.argument_ok_iff s x).1 hx).written⟩
      · cases e

/-- A host step that gives no next state is refused, since none faults. -/
theorem hostStep_refused_of_ne_next {h : HostStep} {s : State} (hne : ∀ t, hostStep h s ≠ .next t) :
    ∃ r, hostStep h s = .refused r := by
  cases e : hostStep h s with
  | next t => exact absurd e (hne t)
  | fault f => exact absurd e (hostStep_ne_fault h s f)
  | refused r => exact ⟨r, rfl⟩

/-- `STATUS` has two values besides `BUSY` (R18). -/
theorem Status.ne_busy_iff (v : Status) : v ≠ .busy ↔ v = .idle ∨ v = .done := by
  cases v <;> decide

/-! ### The statements about host steps -/

/-- Settles O41: the one write there is to the input buffer, behind the gate and the index check. -/
theorem winWritesOneCell : Obligations.WinWritesOneCell := by
  intro s i b
  refine ⟨fun hs hi => ⟨_, hostStep_win b hs hi, Memory.read_write_same s.inBuf i b,
    fun j hj => Memory.read_write_other s.inBuf b hj⟩, ?_⟩
  rintro (hbusy | hi)
  · exact ⟨_, hostStep_of_busy hbusy nofun⟩
  · exact whenNotBusy_of_refused s (if_pos hi)

/-- Settles O42: the width of `IN_LEN` is the one check behind the gate. -/
theorem wlenWritesLength : Obligations.WlenWritesLength := by
  intro s n
  refine ⟨fun hs hn => hostStep_wlen hs hn, ?_⟩
  rintro (hbusy | hn)
  · exact ⟨_, hostStep_of_busy hbusy nofun⟩
  · exact whenNotBusy_of_refused s (if_pos hn)

/-- Settles O43: a `START` that gives a next state meets the conditions, and one that meets them
gives that state. -/
theorem startEnabledExactly : Obligations.StartEnabledExactly := by
  intro s op
  refine ⟨fun hs hop hlen hcells =>
    hostStep_start (s.status.ne_busy_iff.2 hs) hop ⟨hlen, hcells⟩, fun hnot => ?_⟩
  refine hostStep_refused_of_ne_next fun t e => hnot ?_
  obtain ⟨hs, hop, hlen, hcells⟩ := hostStep_start_next e
  exact ⟨s.status.ne_busy_iff.1 hs, hop, hlen, hcells⟩

/-- Settles O5: opcode 7 misses condition (b) of R116, and a write of index 0 is `START` (R35). -/
theorem reservedOpcodeRefused : Obligations.ReservedOpcodeRefused := by
  intro s arg
  have hstart : ∃ r, hostStep (.start 7#3) s = .refused r :=
    (startEnabledExactly s 7#3).2 fun ⟨_, hop, _⟩ => absurd hop (by decide)
  refine ⟨hstart, ?_⟩
  rwa [busStep_of_ok (Access.toHostStep_write_zero arg (by decide))]

/-- Settles O44: `RSTAT` has no gate and every other host step has one. -/
theorem onlyStatusReadWhileBusy : Obligations.OnlyStatusReadWhileBusy :=
  fun _ => ⟨rfl, fun hbusy _ hne => ⟨_, hostStep_of_busy hbusy hne⟩⟩

/-- Settles O45: each read behind the gate returns its register, and `R26` says what an idle block's
result registers hold. -/
theorem resultReads : Obligations.ResultReads := by
  intro s
  refine ⟨fun hs => ⟨whenNotBusy_open hs _, whenNotBusy_open hs _, ?res, whenNotBusy_open hs _,
    fun i h hi => ?within, fun i h hi => ?beyond⟩, fun hr hidle => ?idle, fun hbusy h hh => ?gated,
    fun hbusy i => ⟨_, hostStep_of_busy hbusy nofun⟩⟩
  case res =>
    rw [← resCode_eq_ite]
    exact whenNotBusy_open hs _
  case within =>
    rw [hostStep_rout hs hi, State.readOut_of_lt h]
    rfl
  case beyond =>
    rw [hostStep_rout hs hi, State.readOut_of_le h]
    rfl
  case idle =>
    obtain ⟨hlen, herr, hres⟩ := hr.idleClean hidle
    exact ⟨congrArg errCode herr, hres, List.eq_nil_of_length_eq_zero hlen⟩
  case gated =>
    refine ⟨_, hostStep_of_busy hbusy ?_⟩
    rintro rfl
    exact absurd hh (by decide)

/-! ### The schedule and the engine -/

/-- Settles O2: by what stands first on the schedule. -/
theorem stepTakesNextEvent : Obligations.StepTakesNextEvent := by
  intro s rest
  refine ⟨fun h hp => step_of_pending_cons hp, fun a h hp ha => ?_,
    fun hp => step_of_pending_cons hp, fun hp hs => ?_⟩
  · exact (step_of_pending_cons hp).trans (busStep_of_ok ha _)
  · exact (step_of_pending_nil hp).trans (quietStep_of_not_busy hs)

/-- The seven words up to 6 are commands (R56). -/
theorem exists_decode_of_le {w : Opcode} (h : w.toNat ≤ 6) : ∃ i, decode w = .ok i := by
  unfold decode
  interval_cases w.toNat <;> exact ⟨_, rfl⟩

/-- In a busy state that meets the invariant there is a command to perform, and its argument is
present (R26). -/
theorem State.Inv.exists_ready {s : State} (h : s.Inv) (hbusy : s.status = .busy) :
    ∃ i x, decode s.cmd = .ok i ∧ s.Ready x := by
  obtain ⟨hcmd, harg⟩ := h.r26.busyReady hbusy
  obtain ⟨i, hi⟩ := exists_decode_of_le hcmd
  obtain ⟨x, hx⟩ := harg.holds
  exact ⟨i, x, hi, hbusy, hx⟩

/-- The engine's step on a present argument (R119). -/
theorem engineStep_ready {s : State} {i : Instr} {x : List Byte} (hi : decode s.cmd = .ok i)
    (hx : s.Ready x) : engineStep s = .next (s.writeBack (commandResult i x)) := by
  rw [engineStep_of_decode hi, exec_ready i hx]

/-- With no event left, an operation in progress completes (R123). -/
theorem step_ready_of_pending_nil {s : State} {i : Instr} {x : List Byte} (hp : s.pending = [])
    (hi : decode s.cmd = .ok i) (hx : s.Ready x) :
    step s = .next (s.writeBack (commandResult i x)) := by
  rw [step_of_pending_nil hp, quietStep_of_busy hx.1, engineStep_ready hi hx]

/-- Settles O37: the write-back of the command in `CMD`, which only a busy block performs and which
the invariant always allows it. -/
theorem completePerformsOperation : Obligations.CompletePerformsOperation := by
  refine ⟨fun s x i hx hi => engineStep_ready hi hx, fun s t hs e => hs (engineStep_status e).1,
    fun s hinv hbusy => ?_⟩
  obtain ⟨i, x, hi, hx⟩ := hinv.exists_ready hbusy
  exact ⟨_, engineStep_ready hi hx⟩

end Sys2Proof.Machine
end

section
/-! PROOFS. Whole runs: polling an operation to its end (O40), and the calling sequence (O58). -/

namespace Sys2Proof.Machine

open Sys2Proof.Reference

/-! ### Runs along a part of the schedule -/

/-- A run in two parts, in any machine. -/
theorem run_add {M : Host.Core} {m : Nat} {s t : M.State} (n : Nat) (h : M.run m s = .next t) :
    M.run (m + n) s = M.run n t := by
  induction m generalizing s with
  | zero => cases h; rw [Nat.zero_add]
  | succ m ih =>
    rw [Nat.succ_add]
    simp only [Host.Core.run] at h ⊢
    cases e : M.step s with
    | next u =>
      simp only [e] at h
      exact ih h
    | fault f => simp [e] at h
    | refused r => simp [e] at h

/-- One step as a run, in any machine. -/
theorem run_one {M : Host.Core} {s t : M.State} (h : M.step s = .next t) :
    M.run 1 s = .next t := by
  simp [Host.Core.run, h]

/-- The events `es` take the block from `s` to `t`, whatever stands behind them on the schedule. The
schedules of `s` and `t` themselves do not matter. -/
def Performs (es : List Event) (s t : State) : Prop :=
  ∀ rest, Host.Core.run Sys2Proof.core es.length { s with pending := es ++ rest } =
    .next { t with pending := rest }

/-- A run over the events that stand first on the schedule. -/
theorem Performs.run {es rest : List Event} {s t : State} (h : Performs es s t)
    (hp : s.pending = es ++ rest) :
    Host.Core.run Sys2Proof.core es.length s = .next { t with pending := rest } := by
  have hs : { s with pending := es ++ rest } = s := by rw [← hp]
  exact hs ▸ h rest

/-- No event, no step. -/
theorem Performs.nil (s : State) : Performs [] s s := fun _ => rfl

/-- One event that has its effect under every schedule. -/
theorem Performs.single {e : Event} {s t : State}
    (h : ∀ rest, eventStep e { s with pending := rest } = .next { t with pending := rest }) :
    Performs [e] s t := by
  intro rest
  have hstep : step { s with pending := e :: rest } = _ := step_of_pending_cons rfl
  exact run_one (M := Sys2Proof.core) (hstep.trans (h rest))

/-- Parts of a schedule are performed one after the other. -/
theorem Performs.append {es fs : List Event} {s t u : State} (h : Performs es s t)
    (h' : Performs fs t u) : Performs (es ++ fs) s u := by
  intro rest
  rw [List.length_append, List.append_assoc, run_add _ (h (fs ++ rest))]
  exact h' rest

/-- The first event of a schedule, and then the rest. -/
theorem Performs.cons {e : Event} {es : List Event} {s t u : State} (h : Performs [e] s t)
    (h' : Performs es t u) : Performs (e :: es) s u := h.append h'

/-! ### Reads along a run -/

/-- Reads return the values `vs` to the host, in this order, and change nothing else (R34). -/
def State.giveAll (s : State) (vs : List Nat) : State := { s with returned := s.returned ++ vs }

/-- No value given leaves the state as it is. -/
theorem State.giveAll_nil (s : State) : s.giveAll [] = s := by
  simp [State.giveAll]

/-- The first value is given first. -/
theorem State.giveAll_cons (s : State) (v : Nat) (vs : List Nat) :
    s.giveAll (v :: vs) = (s.give v).giveAll vs := by
  simp [State.giveAll, State.give]

/-- Values given in two parts. -/
theorem State.giveAll_append (s : State) (vs ws : List Nat) :
    s.giveAll (vs ++ ws) = (s.giveAll vs).giveAll ws := by
  simp [State.giveAll]

/-- The read `h` returns `v` and changes nothing else, whatever is to come and whatever the host has
read before. -/
def State.Returns (s : State) (h : HostStep) (v : Nat) : Prop :=
  ∀ events seen, hostStep h { s with pending := events, returned := seen } =
    .next (State.give { s with pending := events, returned := seen } v)

/-- What a list of reads returns is given to the host in their order. -/
theorem Performs.reads {s : State} {l : List (HostStep × Nat)} (h : ∀ c ∈ l, s.Returns c.1 c.2) :
    Performs (l.map fun c => Event.host c.1) s (s.giveAll (l.map Prod.snd)) := by
  induction l generalizing s with
  | nil =>
    rw [List.map_nil, List.map_nil, State.giveAll_nil]
    exact .nil s
  | cons c l ih =>
    obtain ⟨hc, hl⟩ := List.forall_mem_cons.1 h
    have hfirst : Performs [.host c.1] s (s.give c.2) := .single fun rest => hc rest s.returned
    exact s.giveAll_cons _ _ ▸ hfirst.cons (ih (s := s.give c.2) hl)

/-- Polling returns the code of `STATUS` every time (R117). -/
theorem performs_polls (s : State) (n : Nat) :
    Performs (List.replicate n (.host .rstat)) s
      (s.giveAll (List.replicate n s.status.code)) := by
  have h : ∀ c ∈ List.replicate n (HostStep.rstat, s.status.code), s.Returns c.1 c.2 := by
    intro c hc
    rw [List.eq_of_mem_replicate hc]
    exact fun _ _ => rfl
  simpa using Performs.reads h

/-- Settles O40: the polls leave the argument and `CMD` alone, and then the engine moves. -/
theorem everyOperationCompletes : Obligations.EveryOperationCompletes := by
  intro s n hinv hbusy hp
  obtain ⟨i, x, hi, hx⟩ := hinv.exists_ready hbusy
  have hpolls := (performs_polls s n).run (hp.trans (List.append_nil _).symm)
  rw [List.length_replicate, hbusy] at hpolls
  have hlast := step_ready_of_pending_nil
    (s := { s.giveAll (List.replicate n 1) with pending := [] }) rfl hi hx
  exact ⟨_, i, x, (run_add 1 hpolls).trans (run_one (M := Sys2Proof.core) hlast), hi, hx.2, rfl,
    rfl, rfl, rfl, rfl⟩

/-! ### Loading and starting -/

/-- The input buffer after the bytes `x` are written to the cells from `k` on, in rising order. -/
def Memory.load (m : Memory) (k : Nat) : List Byte → Memory
  | [] => m
  | b :: x => Memory.load (Memory.write m k b) (k + 1) x

/-- Loading leaves the cells below the first one alone. -/
theorem Memory.read_load_of_lt {m : Memory} {k j : Nat} (x : List Byte) (h : j < k) :
    Memory.read (Memory.load m k x) j = Memory.read m j := by
  induction x generalizing m k with
  | nil => rfl
  | cons b x ih =>
    rw [Memory.load, ih (Nat.lt_succ_of_lt h), Memory.read_write_other m b (Nat.ne_of_lt h)]

/-- The cells loaded hold the bytes loaded. -/
theorem Memory.read_load (m : Memory) (k : Nat) {i : Nat} {x : List Byte} (h : i < x.length) :
    Memory.read (Memory.load m k x) (k + i) = some x[i] := by
  induction x generalizing m k i with
  | nil => exact absurd h (Nat.not_lt_zero i)
  | cons b x ih =>
    cases i with
    | zero =>
      exact (Memory.read_load_of_lt x (Nat.lt_succ_self k)).trans (Memory.read_write_same m k b)
    | succ i =>
      have hrest := ih (Memory.write m k b) (k + 1) (Nat.lt_of_succ_lt_succ h)
      rwa [Nat.add_right_comm] at hrest

/-- The host loads bytes into consecutive cells by `WIN` (R124). -/
theorem performs_load {s : State} {k : Nat} {x : List Byte} (hs : s.status ≠ .busy)
    (h : k + x.length ≤ s.capIn) :
    Performs ((x.zipIdx k).map fun c => Event.host (.win c.2 c.1)) s
      { s with inBuf := Memory.load s.inBuf k x } := by
  induction x generalizing s k with
  | nil => exact .nil s
  | cons b x ih =>
    rw [List.length_cons] at h
    have hfirst : Performs [.host (.win k b)] s { s with inBuf := Memory.write s.inBuf k b } :=
      .single fun rest => hostStep_win (s := { s with pending := rest }) b hs
        (Nat.lt_of_lt_of_le (by omega) h)
    exact hfirst.cons (ih (s := { s with inBuf := Memory.write s.inBuf k b }) hs
      (Nat.le_trans (by omega) h))

/-- Every length up to `CAP_IN` fits `IN_LEN`. -/
theorem lt_two_pow_lenW {cap n : Nat} (h : n ≤ cap) : n < 2 ^ lenW cap := by
  have hcap : n ≤ capOut cap := by
    unfold capOut
    omega
  unfold lenW
  split
  · omega
  · exact hcap.trans_lt Nat.lt_log2_self

/-- The state after the argument `x` is loaded from cell 0 on and its length is written (R124). -/
def State.loaded (s : State) (x : List Byte) : State :=
  { s with inBuf := Memory.load s.inBuf 0 x, inLen := x.length }

/-- The argument just loaded is the one a command will read. -/
theorem State.loaded_holds {s : State} {x : List Byte} (h : x.length ≤ s.capIn) :
    (s.loaded x).Holds x := by
  refine ⟨h, rfl, fun j hj => ?_⟩
  rw [← Memory.read_load s.inBuf 0 hj, Nat.zero_add]
  rfl

/-- The state after the command `i` is started on the argument `x` (R124). -/
def State.started (s : State) (i : Instr) (x : List Byte) : State :=
  { s.loaded x with cmd := encode i, status := .busy }

/-- A command just started has its argument. -/
theorem State.started_ready {s : State} {x : List Byte} (i : Instr) (h : x.length ≤ s.capIn) :
    (s.started i x).Ready x :=
  ⟨rfl, State.loaded_holds h⟩

/-- The word of a command is not the reserved one (R57). -/
theorem encode_toNat_le (i : Instr) : (encode i).toNat ≤ 6 := by
  cases i <;> decide

/-! ### The calling sequence -/

/-- The first phase of R124: load the argument and write its length. -/
def loadEvents (x : List Byte) : List Event :=
  x.zipIdx.map (fun c => Event.host (.win c.2 c.1)) ++ [Event.host (.wlen x.length)]

/-- The third phase of R124, behind `START`: poll, until the engine has moved. -/
def workEvents (polls : Nat) : List Event :=
  List.replicate polls (Event.host .rstat) ++ [Event.complete]

/-- The last phase of R124: see `DONE`, and read the result registers and `m` result bytes. -/
def readEvents (m : Nat) : List Event :=
  [Event.host .rstat, Event.host .rerr, Event.host .rres, Event.host .rolen] ++
    (List.range m).map fun j => Event.host (.rout j)

/-- The calling sequence is its phases (R124). -/
theorem callEvents_eq_phases (i : Instr) (x : List Byte) (polls m : Nat) :
    callEvents i x polls m =
      (loadEvents x ++ [Event.host (.start (encode i))]) ++ (workEvents polls ++ readEvents m) := by
  simp [callEvents, loadEvents, workEvents, readEvents]

/-- The host loads the argument and writes its length. -/
theorem performs_argument {s : State} {x : List Byte} (hs : s.status ≠ .busy)
    (h : x.length ≤ s.capIn) :
    Performs (loadEvents x) s (s.loaded x) :=
  (performs_load hs ((Nat.zero_add _).trans_le h)).append (.single fun rest => hostStep_wlen
    (s := { s with inBuf := Memory.load s.inBuf 0 x, pending := rest }) hs (lt_two_pow_lenW h))

/-- The host starts the command on the argument it has loaded (R124). -/
theorem performs_start {s : State} {x : List Byte} (i : Instr) (hs : s.status ≠ .busy)
    (h : x.length ≤ s.capIn) :
    Performs [.host (.start (encode i))] (s.loaded x) (s.started i x) :=
  .single fun rest => hostStep_start (s := { s.loaded x with pending := rest }) hs
    (encode_toNat_le i) (State.loaded_holds h).written

/-- The host polls an operation while the engine works, and the engine completes it (R124). -/
theorem performs_operation {s : State} {i : Instr} {x : List Byte} (polls : Nat)
    (hi : decode s.cmd = .ok i) (hx : s.Ready x) :
    Performs (workEvents polls) s
      ((s.writeBack (commandResult i x)).giveAll (List.replicate polls 1)) := by
  have hpolls := performs_polls s polls
  rw [hx.1] at hpolls
  exact hpolls.append (.single fun rest => engineStep_ready
    (s := { s.giveAll (List.replicate polls 1) with pending := rest }) hi hx)

/-- The host reads the result registers of a block that is not busy (R118). -/
theorem performs_register_reads {s : State} (hs : s.status ≠ .busy) :
    Performs [.host .rstat, .host .rerr, .host .rres, .host .rolen] s
      (s.giveAll [s.status.code, errCode s.err, resCode s.res, s.outLen]) := by
  have hread : ∀ c ∈ [(HostStep.rstat, s.status.code), (.rerr, errCode s.err),
      (.rres, resCode s.res), (.rolen, s.outLen)], s.Returns c.1 c.2 := by
    simp only [List.forall_mem_cons]
    exact ⟨fun _ _ => rfl, fun _ _ => whenNotBusy_open hs _, fun _ _ => whenNotBusy_open hs _,
      fun _ _ => whenNotBusy_open hs _, nofun⟩
  exact .reads hread

/-- The host reads the bytes of the result through the `OUT` window (R118). -/
theorem performs_byte_reads {s : State} (hs : s.status ≠ .busy) (hout : s.outLen ≤ capOut s.capIn) :
    Performs ((List.range s.outLen).map fun j => Event.host (.rout j)) s
      (s.giveAll (s.out.map BitVec.toNat)) := by
  have hread : ∀ c ∈ (List.range s.outLen).map fun j => (HostStep.rout j, (s.readOut j).toNat),
      s.Returns c.1 c.2 := by
    simp only [List.forall_mem_map, List.mem_range]
    exact fun j hj events seen =>
      hostStep_rout (s := { s with pending := events, returned := seen }) hs (hj.trans_le hout)
  have hbytes : (List.range s.outLen).map (fun j => (s.readOut j).toNat) =
      s.out.map BitVec.toNat := by
    refine List.ext_getElem (by simp [State.outLen]) fun j _ hj => ?_
    have hlt : j < s.out.length := by simpa using hj
    simp [State.readOut_of_lt hlt]
  simpa [Function.comp_def, hbytes] using Performs.reads hread

/-- The host sees `DONE`, and reads the result registers and the bytes of the result (R124). -/
theorem performs_result_reads {s : State} (hs : s.status = .done)
    (hout : s.outLen ≤ capOut s.capIn) :
    Performs (readEvents s.outLen) s
      (s.giveAll ([2, errCode s.err, resCode s.res, s.outLen] ++ s.out.map BitVec.toNat)) := by
  have hgate : s.status ≠ .busy := s.status.ne_busy_iff.2 (.inr hs)
  have hregs := performs_register_reads hgate
  rw [hs] at hregs
  rw [State.giveAll_append]
  exact hregs.append (performs_byte_reads (s := s.giveAll _) hgate hout)

/-- The whole calling sequence (R124): the operation is done and the host has read its result. -/
theorem performs_call {s : State} {x : List Byte} (i : Instr) (polls : Nat) (hs : s.status ≠ .busy)
    (h : x.length ≤ s.capIn) :
    Performs (callEvents i x polls (commandResult i x).out.length) s
      (((s.started i x).writeBack (commandResult i x)).giveAll (List.replicate polls 1 ++
        ([2, errCode (commandResult i x).err, resCode (commandResult i x).res,
          (commandResult i x).out.length] ++ (commandResult i x).out.map BitVec.toNat))) := by
  have hfits : (commandResult i x).out.length ≤ capOut s.capIn :=
    (commandResult_out_length_le i x).trans (capOut_mono h)
  have hload := (performs_argument hs h).append (performs_start i hs h)
  have hwork := performs_operation polls (decode_encode i) (State.started_ready i h)
  have hread := performs_result_reads
    (s := ((s.started i x).writeBack (commandResult i x)).giveAll (List.replicate polls 1)) rfl
    hfits
  rw [callEvents_eq_phases, State.giveAll_append]
  exact hload.append (hwork.append hread)

/-- Settles O58: the calling sequence, phase by phase. -/
theorem callReturnsResult : Obligations.CallReturnsResult := by
  intro s i x polls rest _ hs hlen hp
  have hcall := (performs_call i polls hs hlen).run hp
  rw [resCode_eq_ite] at hcall
  refine ⟨_, hcall, rfl, rfl, ?_⟩
  rw [List.append_assoc, List.append_assoc]
  rfl

end Sys2Proof.Machine
end

section
/-! PROOFS. The error kinds of the decoders: where each comes from (O19, O20), and which command can
end in which (O23). -/

namespace Sys2Proof.Machine

/-! ### The kinds a decoder routine raises -/

/-- Where the kind of a failed decode comes from: the size check, the routine's own check, or the
walk of `UNPACK`, which raises two kinds (R131 to R134). -/
theorem decodeAfter_error_cases {check : Option ErrorKind} {t : List Byte} {k : ErrorKind}
    (h : decodeAfter check t = .error k) :
    illegalSize (t.length % 8) = true ∧ k = .invalidSize ∨
      illegalSize (t.length % 8) = false ∧
        (check = some k ∨ k = .invalidPadding ∨ k = .invalidCharacter) := by
  cases hsize : illegalSize (t.length % 8) with
  | true =>
    rw [decodeAfter_of_illegal hsize] at h
    exact .inl ⟨rfl, (Except.error.inj h).symm⟩
  | false =>
    refine .inr ⟨rfl, ?_⟩
    cases check with
    | none =>
      have hwhole : (normalise t).length % 8 = 0 := by
        rw [normalise_length, add_appendCount_mod hsize]
      rw [decodeAfter_of_pass hsize] at h
      exact .inr ((unpack_error_kind hwhole h).imp_right And.left)
    | some e =>
      have hpos : 0 < t.length := Nat.pos_of_ne_zero fun h0 => by simp [decodeAfter, h0] at h
      rw [decodeAfter_of_fail hpos hsize] at h
      exact .inl (congrArg some (Except.error.inj h))

/-- The pre-checks of R89 and R96 fail with no kind but `InvalidPadding`. -/
theorem eq_invalidPadding_of_check {check : Option ErrorKind} {k : ErrorKind}
    (hkind : check = none ∨ check = some .invalidPadding) (h : check = some k) :
    k = .invalidPadding := by
  rcases hkind with hpass | hfail
  · rw [hpass] at h
    cases h
  · exact Option.some.inj (h.symm.trans hfail)

/-! ### `InvalidSize` -/

theorem decodeAfter_eq_invalidSize_iff {check : Option ErrorKind} {t : List Byte}
    (hcheck : check ≠ some .invalidSize) :
    decodeAfter check t = .error .invalidSize ↔ illegalSize (t.length % 8) = true := by
  refine ⟨fun h => ?_, fun h => decodeAfter_of_illegal h check⟩
  rcases decodeAfter_error_cases h with ⟨hsize, -⟩ | ⟨-, hfail | hk | hk⟩
  · exact hsize
  · exact absurd hfail hcheck
  all_goals cases hk

/-- No text of an illegal size is empty (R87). -/
theorem illegalSize_mod_iff {n : Nat} :
    illegalSize (n % 8) = true ↔ 0 < n ∧ (n % 8 = 1 ∨ n % 8 = 3 ∨ n % 8 = 6) := by
  rw [illegalSize_iff]
  omega

/-- Settles O19: the size check comes first, and no later check raises its kind. -/
theorem invalidSizeExactly : Obligations.InvalidSizeExactly := by
  intro t
  rw [← illegalSize_mod_iff, decodeTolerant_eq, decodeUnpadded_eq, decodePadded_eq]
  refine ⟨decodeAfter_eq_invalidSize_iff ?_, decodeAfter_eq_invalidSize_iff ?_,
    decodeAfter_eq_invalidSize_iff ?_⟩
  · exact fun h => nomatch eq_invalidPadding_of_check (precheckTolerant_kind t) h
  · exact fun h => nomatch eq_invalidPadding_of_check (precheckUnpadded_kind t) h
  · split <;> nofun

/-! ### `RequiresPadding` -/

/-- This kind comes from a routine's own check alone. -/
theorem check_eq_of_decodeAfter_requiresPadding {check : Option ErrorKind} {t : List Byte}
    (h : decodeAfter check t = .error .requiresPadding) :
    illegalSize (t.length % 8) = false ∧ check = some .requiresPadding := by
  rcases decodeAfter_error_cases h with ⟨-, hk⟩ | ⟨hsize, hfail | hk | hk⟩
  case inr.inl => exact ⟨hsize, hfail⟩
  all_goals cases hk

theorem decodeTolerant_ne_requiresPadding (t : List Byte) :
    decodeTolerant t ≠ .error .requiresPadding := fun h =>
  nomatch eq_invalidPadding_of_check (precheckTolerant_kind t)
    (check_eq_of_decodeAfter_requiresPadding h).2

theorem decodeUnpadded_ne_requiresPadding (t : List Byte) :
    decodeUnpadded t ≠ .error .requiresPadding := fun h =>
  nomatch eq_invalidPadding_of_check (precheckUnpadded_kind t)
    (check_eq_of_decodeAfter_requiresPadding h).2

/-- The padded-only decoder demands padding of every text of a legal size that is not whole blocks
(R98). -/
theorem decodePadded_eq_requiresPadding_iff (t : List Byte) :
    decodePadded t = .error .requiresPadding ↔
      illegalSize (t.length % 8) = false ∧ t.length % 8 ≠ 0 := by
  refine ⟨fun h => ?_, fun ⟨hsize, hpart⟩ => decodePadded_of_part hsize hpart⟩
  rw [decodePadded_eq] at h
  obtain ⟨hsize, hcheck⟩ := check_eq_of_decodeAfter_requiresPadding h
  exact ⟨hsize, (Option.ite_none_right_eq_some.1 hcheck).1⟩

/-- The legal sizes but 0 are 2, 4, 5 and 7 (R87). -/
theorem legal_part_mod_iff {n : Nat} :
    illegalSize (n % 8) = false ∧ n % 8 ≠ 0 ↔
      0 < n ∧ (n % 8 = 2 ∨ n % 8 = 4 ∨ n % 8 = 5 ∨ n % 8 = 7) := by
  rw [← Bool.not_eq_true, illegalSize_iff]
  omega

/-! ### The kinds the commands end in -/

/-- A decode writes back the kind it fails with (R139). -/
@[simp] theorem Result.ofDecode_err (e : Except ErrorKind (List Byte)) :
    (Result.ofDecode e).err = errorOf e := by
  cases e <;> rfl

/-- `ERR` after a command is the kind in its row of the case table of R119. -/
theorem exec_next_err {i : Instr} {s t : State} (h : exec i s = .next t) :
    ∃ x, t.err = (commandResult i x).err := by
  rw [exec_eq_complete] at h
  obtain ⟨x, -, rfl⟩ := complete_next h
  exact ⟨x, rfl⟩

/-- Every row of the case table of R119 is reached, by a block just large enough for the
argument. -/
theorem exists_exec_err (i : Instr) (x : List Byte) :
    ∃ s t, exec i s = .next t ∧ t.err = (commandResult i x).err :=
  ⟨(State.resetWith x.length).started i x, _, exec_ready i (State.started_ready i le_rfl), rfl⟩

theorem eq_decp_of_commandResult_requiresPadding {i : Instr} {x : List Byte}
    (h : (commandResult i x).err = some .requiresPadding) : i = .decp := by
  cases i with
  | dec =>
    rw [commandResult, Result.ofDecode_err, errorOf_eq_some_iff] at h
    exact absurd h (decodeTolerant_ne_requiresPadding x)
  | decu =>
    rw [commandResult, Result.ofDecode_err, errorOf_eq_some_iff] at h
    exact absurd h (decodeUnpadded_ne_requiresPadding x)
  | decp => rfl
  | enc => cases h
  | encu => cases h
  | valid => cases h
  | isb32 => cases h

theorem eq_decp_of_exec_requiresPadding {i : Instr} {s t : State} (h : exec i s = .next t)
    (herr : t.err = some .requiresPadding) : i = .decp := by
  obtain ⟨x, hx⟩ := exec_next_err h
  exact eq_decp_of_commandResult_requiresPadding (hx ▸ herr)

/-- Settles O20: only the padded-only decoder's own check raises this kind. -/
theorem requiresPaddingExactly : Obligations.RequiresPaddingExactly := by
  intro t
  rw [← legal_part_mod_iff]
  exact ⟨decodePadded_eq_requiresPadding_iff t, decodeTolerant_ne_requiresPadding t,
    decodeUnpadded_ne_requiresPadding t, fun _ _ _ => eq_decp_of_exec_requiresPadding⟩

/-- The encoders and the validators leave `ERR = 0` (R130). -/
theorem err_eq_none_of_not_decoder {i : Instr} (hi : i ∉ [Instr.dec, .decu, .decp]) (s t : State)
    (h : exec i s = .next t) : t.err = none := by
  obtain ⟨x, hx⟩ := exec_next_err h
  rw [hx]
  cases i with
  | enc => rfl
  | encu => rfl
  | valid => rfl
  | isb32 => rfl
  | dec => simp at hi
  | decu => simp at hi
  | decp => simp at hi

/-- One text for all three decoders and each way they have in common to end: the empty text, `K`,
`========` and `KN2W4==%` (vectors S2, S4, T40 and T54). -/
theorem exists_argument_with_err :
    ∀ e ∈ [none, some ErrorKind.invalidSize, some .invalidPadding, some .invalidCharacter],
      ∃ x, ∀ i ∈ [Instr.dec, .decu, .decp], (commandResult i x).err = e := by
  simp only [List.forall_mem_cons, List.not_mem_nil, false_imp_iff, implies_true, and_true]
  refine ⟨⟨[], ?_⟩, ⟨[0x4B#8], ?_⟩, ⟨List.replicate 8 0x3D#8, ?_⟩,
    ⟨[0x4B#8, 0x4E#8, 0x32#8, 0x57#8, 0x34#8, 0x3D#8, 0x3D#8, 0x25#8], ?_⟩⟩
  all_goals decide

/-- Settles O23: what never happens by the rows of R119, what can happen by one text for each kind;
the text that lacks its padding is `KN2W4` (vector S12). -/
theorem errorKindsByCommand : Obligations.ErrorKindsByCommand := by
  refine ⟨err_eq_none_of_not_decoder (by decide), err_eq_none_of_not_decoder (by decide),
    err_eq_none_of_not_decoder (by decide), err_eq_none_of_not_decoder (by decide),
    fun _ _ h herr => ?dec, fun _ _ h herr => ?decu, fun e he => ?common, ?requiresPadding⟩
  case dec => cases eq_decp_of_exec_requiresPadding h herr
  case decu => cases eq_decp_of_exec_requiresPadding h herr
  case common =>
    obtain ⟨x, hx⟩ := exists_argument_with_err e he
    have hends : ∀ i ∈ [Instr.dec, .decu, .decp], ∃ s t, exec i s = .next t ∧ t.err = e :=
      fun i hi => hx i hi ▸ exists_exec_err i x
    exact ⟨hends .dec (by decide), hends .decu (by decide), hends .decp (by decide)⟩
  case requiresPadding => exact exists_exec_err .decp [0x4B#8, 0x4E#8, 0x32#8, 0x57#8, 0x34#8]

end Sys2Proof.Machine
end

section
/-! PROOFS. Noninterference: the result is a function of the command and its argument (O39). -/

namespace Sys2Proof.Machine

/-- What a state holds as the argument is a matter of `IN[0..IN_LEN)` alone (R44): it passes to any
state whose buffer has room for it and agrees on those cells. -/
theorem State.Holds.of_agree {s u : State} {x : List Byte} (hx : s.Holds x)
    (hcap : u.inLen ≤ u.capIn) (hlen : u.inLen = s.inLen)
    (hin : ∀ a, a < s.inLen → Memory.read u.inBuf a = Memory.read s.inBuf a) : u.Holds x := by
  obtain ⟨-, hxlen, hread⟩ := hx
  exact ⟨hcap, hxlen.trans hlen.symm, fun i hi => (hin i (hxlen ▸ hi)).trans (hread i hi)⟩

/-- Settles O39: the second state holds the same argument, and both write back the same row of
R119. -/
theorem resultDependsOnArgumentAlone : Obligations.ResultDependsOnArgumentAlone := by
  intro s u t hstep hbusy hcap hcmd hlen hin
  obtain ⟨i, x, hi, ⟨-, hx⟩, rfl⟩ := engineStep_next hstep
  have hready : u.Ready x := ⟨hbusy, hx.of_agree hcap hlen hin⟩
  exact ⟨u.writeBack (commandResult i x), engineStep_ready (hcmd ▸ hi) hready, rfl, rfl, rfl, rfl⟩

end Sys2Proof.Machine
end

section
/-! PROOFS. The command words in both directions (O4), and the width of the length register
(O52). -/

namespace Sys2Proof.Machine

/-- Settles O4: a command's word is a row of the table of R56, and a word that decodes stands in the
row of its command. -/
theorem decodeInvertsEncode : Obligations.DecodeInvertsEncode :=
  ⟨fun i _ => decode_encode i, fun _ _ h => (eq_encode_of_decode h).symm⟩

/-- The widths that hold every length up to `CAP_OUT` are those from `LENW` on. -/
theorem lenW_le_iff (cap w : Nat) : lenW cap ≤ w ↔ capOut cap < 2 ^ w := by
  unfold lenW
  split
  case isTrue h => simp [h]
  case isFalse h => exact Nat.log2_lt h

/-- Settles O52: both halves of the general claim are `lenW_le_iff`, the first at `LENW` itself. -/
theorem lengthWidthIsLeast : Obligations.LengthWidthIsLeast :=
  ⟨fun cap => ⟨(lenW_le_iff cap _).1 le_rfl, fun w => (lenW_le_iff cap w).2⟩, by decide, by decide⟩

end Sys2Proof.Machine
end
